-- ==== Sys2Proof/Word.lean ====
section
/-!
DEFINITION. The word types of the block. Every value is unsigned (00_scope.md R9); bits are numbered from 0 at the
least-significant end (R7).
-/

namespace Sys2Proof

/-- A byte of a frame, an 8-bit register, a byte operand (00_scope.md R8, 30_encoding.md R81). -/
abbrev Byte := BitVec 8

/-- A 16-bit register, protocol field, CRC value or decoded register value (10_state.md R22, R23, R25, R28). -/
abbrev Half := BitVec 16

/-- A command word, and the data of one host access (20_memory.md R50, 30_encoding.md R80). -/
abbrev Word := BitVec 32

/-- A byte offset in the host register space, 0x000 to 0xFFF (20_memory.md R50). -/
abbrev Offset := BitVec 12

end Sys2Proof
end

