-- ==== Sys2Proof/Config.lean ====
section
/-!
DEFINITION. The parameters of 00_scope.md R6. `EXC_SHORT_FRAME` is the one open row: the model takes it as an argument
(`Params`, log entry 2); every other row is a constant of this hardware. The derived lengths and `EXC_BIT` stand where they
are used (Sys2Proof/Machine/Operands.lean, Flags.lean).
-/

namespace Sys2Proof.Config

/-- `MIN_QTY` (00_scope.md R6). -/
def minQty : Nat := 1

/-- `MAX_QTY` (00_scope.md R6). -/
def maxQty : Nat := 125

/-- `FC_READ` (00_scope.md R3, R6). -/
def fcRead : Byte := 0x03#8

/-- `FC_WRITE` (00_scope.md R3, R6). -/
def fcWrite : Byte := 0x06#8

/-- `CRC_SEED` (00_scope.md R6). -/
def crcSeed : Half := 0xFFFF#16

/-- `CRC_POLY_REFLECTED` (00_scope.md R6; 90_conflicts.md C1). -/
def crcPoly : Half := 0xA001#16

/-- `TX_CAP` in bytes (00_scope.md R6). -/
def txCap : Nat := 256

/-- `RX_CAP` in bytes (00_scope.md R6). -/
def rxCap : Nat := 256

/-- `RESULT_CAP` in 16-bit words (00_scope.md R6, 10_state.md R25). -/
def resultCap : Nat := 125

end Sys2Proof.Config

namespace Sys2Proof

/-- The open parameter of the hardware (00_scope.md R6; 92_eei_decisions.md D22). A value of this type is fixed for a
machine: no step changes it (10_state.md R31). -/
structure Params where
  /-- `EXC_SHORT_FRAME`: whether a 5-byte exception response is recognised (42_decoder.md R164). -/
  excShortFrame : Bool
  deriving DecidableEq, Repr

/-- The spec's baseline, `EXC_SHORT_FRAME = false` (00_scope.md R6). -/
def Params.baseline : Params := { excShortFrame := false }

end Sys2Proof
end

