-- ==== Sys2Proof/Syntax.lean ====
section
/-!
DEFINITION. The commands (30_encoding.md R83, one constructor per row of the opcode table) and the assembler's
statements over them (R91, R92).
-/

namespace Sys2Proof

/-- The block's twelve commands, in the order of 30_encoding.md R83. A byte operand is the field `IMM8` (R81). -/
inductive Instr where
  | nop
  | crcInit
  | crcByte (b : Byte)
  | txClear
  | txPush (b : Byte)
  | txAppendCrc
  | buildRead
  | buildWrite
  | rxClear
  | rxPush (b : Byte)
  | parseRead
  | parseWrite
  deriving DecidableEq, Repr

/-- The two formats of a command word (30_encoding.md R81): `n` takes no operand, `b` takes the byte operand `IMM8`. -/
inductive Format where
  | n
  | b
  deriving DecidableEq, Repr

/-- The format column of 30_encoding.md R83. -/
def Instr.format : Instr → Format
  | .nop => .n
  | .crcInit => .n
  | .crcByte _ => .b
  | .txClear => .n
  | .txPush _ => .b
  | .txAppendCrc => .n
  | .buildRead => .n
  | .buildWrite => .n
  | .rxClear => .n
  | .rxPush _ => .b
  | .parseRead => .n
  | .parseWrite => .n

/-- The mnemonic column of 30_encoding.md R83. -/
def Instr.mnemonic : Instr → String
  | .nop => "NOP"
  | .crcInit => "CRC_INIT"
  | .crcByte _ => "CRC_BYTE"
  | .txClear => "TX_CLEAR"
  | .txPush _ => "TX_PUSH"
  | .txAppendCrc => "TX_APPEND_CRC"
  | .buildRead => "BUILD_READ"
  | .buildWrite => "BUILD_WRITE"
  | .rxClear => "RX_CLEAR"
  | .rxPush _ => "RX_PUSH"
  | .parseRead => "PARSE_READ"
  | .parseWrite => "PARSE_WRITE"

/-- The twelve named registers of the map (20_memory.md R53). -/
inductive HostReg where
  | cmd | status | slave | addr | qty | value | crcAcc | txLen | rxLen | resultCount | excCode | config
  deriving DecidableEq, Repr

/-- The registers marked RW in 20_memory.md R53: the operand registers of 10_state.md R21 to R24. -/
def HostReg.isRW : HostReg → Bool
  | .slave => true
  | .addr => true
  | .qty => true
  | .value => true
  | .cmd => false
  | .status => false
  | .crcAcc => false
  | .txLen => false
  | .rxLen => false
  | .resultCount => false
  | .excCode => false
  | .config => false

/-- One statement of the assembler (30_encoding.md R91). `word` is the `.word 0xXXXXXXXX` of a raw command word. -/
inductive AsmLine where
  | command (i : Instr)
  | word (w : Word)
  | wr (r : HostReg) (v : Word)
  | rd (r : HostReg)
  | rdtx (i : Nat)
  | rdrx (i : Nat)
  | rdres (i : Nat)
  deriving DecidableEq, Repr

/-- The pseudo-instructions of 30_encoding.md R92. -/
inductive Pseudo where
  | crc16 (bytes : List Byte)
  | txFrame (bytes : List Byte)
  | rxFrame (bytes : List Byte)
  | readReq (s a q : Word)
  | writeReq (s a v : Word)
  deriving DecidableEq, Repr

end Sys2Proof
end

