-- ==== Sys2Proof/WellFormed.lean ====
section
/-!
DEFINITION. What a well-formed command word is, as its three fields (30_encoding.md R80 to R82, R84), and what a
well-formed assembler statement is (R91). A term of `Instr` needs no check of its own: the only operand is a `Byte`,
and each of the 256 bytes is admitted (R81, R91). The decoder does not use these checks; Sys2Proof/Laws/ and the
statements compare it with them.
-/

namespace Sys2Proof

/-- The three fields of a command word (30_encoding.md R80). -/
structure CommandFields where
  /-- `OP`, bits [7:0]. -/
  op : Byte
  /-- `IMM8`, bits [15:8]. -/
  imm8 : Byte
  /-- `RSV`, bits [31:16]. -/
  rsv : Half
  deriving DecidableEq, Repr

/-- The OP and Format columns of 30_encoding.md R83. -/
def opcodeFormats : List (Byte × Format) :=
  [(0x00#8, .n), (0x01#8, .n), (0x02#8, .b), (0x10#8, .n), (0x11#8, .b), (0x12#8, .n),
   (0x20#8, .n), (0x21#8, .n), (0x30#8, .n), (0x31#8, .b), (0x40#8, .n), (0x41#8, .n)]

/-- First check of 30_encoding.md R82: `RSV = 0`. -/
def CommandFields.rsvOk (c : CommandFields) : Bool := c.rsv == 0x0000#16

/-- Second check of 30_encoding.md R82: `OP` is listed in R83. -/
def CommandFields.opOk (c : CommandFields) : Bool := opcodeFormats.any fun row => row.1 == c.op

/-- Third check of 30_encoding.md R82: when the row of `OP` is format N, `IMM8 = 0`. -/
def CommandFields.immOk (c : CommandFields) : Bool :=
  opcodeFormats.all fun row => row.1 != c.op || row.2 == .b || c.imm8 == 0x00#8

/-- A legal word's fields (30_encoding.md R82): all three checks hold. -/
def CommandFields.wf (c : CommandFields) : Bool := c.rsvOk && c.opOk && c.immOk

/-- A well-formed assembler statement (30_encoding.md R91): `WR` names an RW register, and the index of `RDTX`, `RDRX`
and `RDRES` lies in its window (20_memory.md R54). -/
def AsmLine.wf : AsmLine → Bool
  | .command _ => true
  | .word _ => true
  | .wr r _ => r.isRW
  | .rd _ => true
  | .rdtx i => i ≤ 255
  | .rdrx i => i ≤ 255
  | .rdres i => i ≤ 124

end Sys2Proof
end

