-- ==== Sys2Proof/Decode.lean ====
section
/-!
DEFINITION. The decoder of command words, total on all 2^32 words (30_encoding.md R80 to R84), and the encoder beside
it (R81, R91). A command is one 32-bit word and the host port has no byte order (20_memory.md R63), so the decoder
reads a word and not a list of bytes.
-/

namespace Sys2Proof

/-- Why a word is illegal: the three kinds of 30_encoding.md R84. All of them behave alike (44_control.md R191); where
a word is illegal for more than one reason the first in this order is named (log entry 11). -/
inductive IllegalWord where
  /-- `RSV ≠ 0`. -/
  | reservedNotZero
  /-- `OP` is not listed in 30_encoding.md R83. -/
  | unassignedOp
  /-- A format-N word with `IMM8 ≠ 0`. -/
  | operandNotZero
  deriving DecidableEq, Repr

/-- What the decoder answers on a word. -/
inductive Decoded where
  | instr (i : Instr)
  | illegal (why : IllegalWord)
  deriving DecidableEq, Repr

/-- `OP`, bits [7:0] (30_encoding.md R80). -/
def fieldOp (w : Word) : Byte := w.extractLsb' 0 8

/-- `IMM8`, bits [15:8] (30_encoding.md R80). -/
def fieldImm8 (w : Word) : Byte := w.extractLsb' 8 8

/-- `RSV`, bits [31:16] (30_encoding.md R80). -/
def fieldRsv (w : Word) : Half := w.extractLsb' 16 16

/-- The fields of a word (30_encoding.md R80). -/
def commandFields (w : Word) : CommandFields := { op := fieldOp w, imm8 := fieldImm8 w, rsv := fieldRsv w }

/-- A format-N row: legal only with `IMM8 = 0` (30_encoding.md R81, R82). -/
def decodeFormatN (w : Word) (i : Instr) : Decoded :=
  if fieldImm8 w = 0x00#8 then .instr i else .illegal .operandNotZero

/-- The opcode map of 30_encoding.md R83, on a word whose `RSV` is zero. -/
def decodeOp (w : Word) : Decoded :=
  match (fieldOp w).toNat with
  | 0x00 => decodeFormatN w .nop
  | 0x01 => decodeFormatN w .crcInit
  | 0x02 => .instr (.crcByte (fieldImm8 w))
  | 0x10 => decodeFormatN w .txClear
  | 0x11 => .instr (.txPush (fieldImm8 w))
  | 0x12 => decodeFormatN w .txAppendCrc
  | 0x20 => decodeFormatN w .buildRead
  | 0x21 => decodeFormatN w .buildWrite
  | 0x30 => decodeFormatN w .rxClear
  | 0x31 => .instr (.rxPush (fieldImm8 w))
  | 0x40 => decodeFormatN w .parseRead
  | 0x41 => decodeFormatN w .parseWrite
  | _ => .illegal .unassignedOp

/-- The decoder (30_encoding.md R82). -/
def decode (w : Word) : Decoded :=
  if fieldRsv w = 0x0000#16 then decodeOp w else .illegal .reservedNotZero

/-- `w = (b << 8) | OP` (30_encoding.md R91), with `RSV = 0`. -/
def encodeFields (op b : Byte) : Word := ((b.setWidth 32) <<< 8) ||| op.setWidth 32

/-- The encoder, from the same table (30_encoding.md R83): `RSV = 0`, and `IMM8 = 0` in format N. -/
def encode : Instr → Word
  | .nop => encodeFields 0x00#8 0x00#8
  | .crcInit => encodeFields 0x01#8 0x00#8
  | .crcByte b => encodeFields 0x02#8 b
  | .txClear => encodeFields 0x10#8 0x00#8
  | .txPush b => encodeFields 0x11#8 b
  | .txAppendCrc => encodeFields 0x12#8 0x00#8
  | .buildRead => encodeFields 0x20#8 0x00#8
  | .buildWrite => encodeFields 0x21#8 0x00#8
  | .rxClear => encodeFields 0x30#8 0x00#8
  | .rxPush b => encodeFields 0x31#8 b
  | .parseRead => encodeFields 0x40#8 0x00#8
  | .parseWrite => encodeFields 0x41#8 0x00#8

/-- The disassembler of 30_encoding.md R91: a legal word is its command, any other is `.word`. -/
def disassemble (w : Word) : AsmLine :=
  match decode w with
  | .instr i => .command i
  | .illegal _ => .word w

/-- The command word among the low `nbits` bits of `w`, every bit above them 0. A command word has 32 bits
(30_encoding.md R80). -/
def tableWord (nbits w : Nat) : Word := BitVec.ofNat 32 (w % 2 ^ nbits)

/-- What the decoder reads from a word numbered as spec/opcode_table.json numbers it (none where the word is
illegal). -/
def decodeTableWord (nbits w : Nat) : Option Instr :=
  match decode (tableWord nbits w) with
  | .instr i => some i
  | .illegal _ => none

end Sys2Proof
end

