-- ==== Sys2Proof/Machine/State.lean ====
section
/-!
DEFINITION. The state: `Block` is the record of 10_state.md R32, field for field; `State` puts beside it what the spec
keeps apart from the block's state, the parameter (00_scope.md R6) and the two ends of the host port (log entries 1 to
4). Reset as 70_reset_and_hazards.md R230.
-/

namespace Sys2Proof.Machine

/-- The architectural state of the block (10_state.md R20, R32). The views `TXLEN`, `RXLEN`, `RESULT_COUNT` and
`CONFIG` are no storage (R20). -/
structure Block where
  /-- `SLAVE` (10_state.md R21). -/
  slave : Byte
  /-- `ADDR` (10_state.md R22). -/
  addr : Half
  /-- `QTY` (10_state.md R23). -/
  qty : Half
  /-- `VALUE` (10_state.md R24). -/
  value : Word
  /-- `CRC_ACC` (10_state.md R28). -/
  crcAcc : Half
  /-- `STATUS` (10_state.md R29). -/
  status : Byte
  /-- `EXC_CODE` (10_state.md R30). -/
  excCode : Byte
  /-- `TX`, at most 256 bytes (10_state.md R26). -/
  tx : List Byte
  /-- `RX`, at most 256 bytes (10_state.md R27). -/
  rx : List Byte
  /-- `RESULT`, at most 125 words (10_state.md R25). -/
  result : List Half
  deriving DecidableEq, Repr

/-- Every piece of state at its reset value (70_reset_and_hazards.md R230). -/
def Block.reset : Block :=
  { slave := 0x00#8, addr := 0x0000#16, qty := 0x0000#16, value := 0x00000000#32
    crcAcc := 0xFFFF#16, status := 0x00#8, excCode := 0x00#8
    tx := [], rx := [], result := [] }

/-- One thing the host can do to the block (20_memory.md R50, R55, R56; 70_reset_and_hazards.md R230, R231). Every
access is 32 bits wide (20_memory.md R57). -/
inductive HostEvent where
  /-- `MemRead(off, 4)`. -/
  | read (off : Offset)
  /-- `MemWrite(off, 4, data)`. -/
  | write (off : Offset) (data : Word)
  /-- The reset input is asserted. -/
  | reset
  deriving DecidableEq, Repr

/-- The machine: the block, its parameter, and the host port. -/
structure State where
  /-- `EXC_SHORT_FRAME`, an argument of the model: no step writes it (log entry 2). -/
  params : Params
  /-- The block's state (10_state.md R32). -/
  block : Block
  /-- The transactions the host has yet to have performed, oldest first (20_memory.md R65; log entry 3). -/
  port : List HostEvent
  /-- The values returned for the reads performed so far, oldest first (20_memory.md R55; log entry 4). -/
  replies : List Word
  deriving DecidableEq, Repr

/-- The machine right after reset, for a hardware with parameter `p`, with no transaction presented yet. -/
def State.resetWith (p : Params) : State := { params := p, block := Block.reset, port := [], replies := [] }

/-- The machine right after reset with the spec's baseline parameter (00_scope.md R6; log entry 2). -/
def State.reset : State := State.resetWith Params.baseline

/-- The status codes of 60_exceptions.md R201, in its order. -/
inductive StatusCode where
  | ok
  | validation
  | shortRead
  | crc
  | slaveMismatch
  | protocolException
  | malformed
  | capacity
  | illegalCmd
  deriving DecidableEq, Repr

/-- What an offset of the host register space selects (20_memory.md R53, R54, R58, R59). -/
inductive HostTarget where
  /-- An offset that is no multiple of 4 (20_memory.md R58). -/
  | misaligned
  /-- An aligned offset that the map marks reserved (20_memory.md R59). -/
  | reserved
  /-- A named register (20_memory.md R53). -/
  | reg (r : HostReg)
  /-- Word `i` of the TXBUF window (20_memory.md R54). -/
  | txBuf (i : Nat)
  /-- Word `i` of the RXBUF window (20_memory.md R54). -/
  | rxBuf (i : Nat)
  /-- Word `i` of the RESULT window (20_memory.md R54). -/
  | resultBuf (i : Nat)
  deriving DecidableEq, Repr

/-- Why the machine stops with a fault: never. The block has no trap, fault or exception mechanism and nothing stops it
(60_exceptions.md R200), so this type has no constructor; a failure is a status code (safe: nothing is left out). -/
inductive Fault where
  deriving DecidableEq, Repr

/-- Why the model gives a step no meaning. -/
inductive Refusal where
  /-- Raised by an arm of `exec` whose instruction has no meaning yet; no arm is one. Safe: the model stops. -/
  | notModelled (mnemonic : String)
  deriving DecidableEq, Repr

end Sys2Proof.Machine
end

