-- ==== Sys2Proof/Machine/Operands.lean ====
section
/-!
DEFINITION. The operand forms and the pure functions over them: bytes and halves, the CRC functions (40_crc.md), the
operands of the encoder (41_encoder.md) and of the validator (42_decoder.md).
-/

namespace Sys2Proof.Machine

/-! ### Bytes and halves -/

/-- `hi(v) = v[15:8]` (00_scope.md R10). -/
def hi (v : Half) : Byte := v.extractLsb' 8 8

/-- `lo(v) = v[7:0]` (00_scope.md R10). -/
def lo (v : Half) : Byte := v.extractLsb' 0 8

/-- `{h, l}`, `h` in the high bits (00_scope.md R7). -/
def half (h l : Byte) : Half := ((h.setWidth 16) <<< 8) ||| l.setWidth 16

/-- `s[i]` (00_scope.md R8), defined there for `i < len(s)`; the default 0 beyond is read by no rule (log entry 7). -/
def byteAt (s : List Byte) (i : Nat) : Byte := s.getD i 0x00#8

/-! ### The CRC functions -/

/-- One of the eight shift steps of 40_crc.md R100: logical, no carry injected. -/
def crcShift (a : Half) : Half :=
  if a.getLsbD 0 then (a >>> 1) ^^^ Config.crcPoly else a >>> 1

/-- `n` shift steps. -/
def crcShifts : Nat → Half → Half
  | 0, a => a
  | n + 1, a => crcShifts n (crcShift a)

/-- `crcStep(acc, b)` (40_crc.md R100). -/
def crcStep (acc : Half) (b : Byte) : Half := crcShifts 8 (acc ^^^ b.setWidth 16)

/-- `crc16(s)` (40_crc.md R101): seed 0xFFFF, no final XOR. -/
def crc16 (s : List Byte) : Half := s.foldl crcStep Config.crcSeed

/-- A CRC value as it stands in a frame, low byte first (40_crc.md R102). -/
def crcBytes (c : Half) : List Byte := [lo c, hi c]

/-- The source's `appendCrc` (41_encoder.md R122). -/
def appendCrc (s : List Byte) : List Byte := s ++ crcBytes (crc16 s)

/-- All bytes of a frame except the last two, `s[0..len(s)-2)` (00_scope.md R8). -/
def frameBody (s : List Byte) : List Byte := s.take (s.length - 2)

/-- The trailing CRC of a frame, `{f[len(f)-1], f[len(f)-2]}` (40_crc.md R102). -/
def trailingCrc (s : List Byte) : Half := half (byteAt s (s.length - 1)) (byteAt s (s.length - 2))

/-! ### Operands of the encoder -/

/-- `qtyOk(q)` (41_encoder.md R125). -/
def qtyOk (q : Half) : Bool := Config.minQty ≤ q.toNat && q.toNat ≤ Config.maxQty

/-- The value of a write request, `VALUE[15:0]` (41_encoder.md R126). -/
def writeValue (v : Word) : Half := v.extractLsb' 0 16

/-- `request(s, fc, f1, f2)` (41_encoder.md R123; fields big-endian, 20_memory.md R62). -/
def request (s fc : Byte) (f1 f2 : Half) : List Byte :=
  appendCrc [s, fc, hi f1, lo f1, hi f2, lo f2]

/-! ### Operands of the validator -/

/-- `READ_RESP_LEN(q) = 5 + 2·q` as a natural number (00_scope.md R6, 42_decoder.md R156). -/
def readRespLen (q : Half) : Nat := 5 + 2 * q.toNat

/-- `WRITE_RESP_LEN` (00_scope.md R6). -/
def writeRespLen : Nat := 8

/-- The decoded words of a read response: `q` big-endian halves from offset 3 (42_decoder.md R161). -/
def decodeWords (rx : List Byte) (q : Nat) : List Half :=
  (List.range q).map fun i => half (byteAt rx (3 + 2 * i)) (byteAt rx (4 + 2 * i))

end Sys2Proof.Machine
end

