-- ==== Sys2Proof/Machine/Flags.lean ====
section
/-!
DEFINITION. How `STATUS`, the block's only condition code (10_state.md R29), is computed: the numbers of the status
codes (60_exceptions.md R201) and the validation stages (42_decoder.md R152), each stage failing with its code and the
first failing stage deciding (60_exceptions.md R204).
-/

namespace Sys2Proof.Machine

/-- The Code column of 60_exceptions.md R201. -/
def StatusCode.code : StatusCode → Byte
  | .ok => 0x00#8
  | .validation => 0x01#8
  | .shortRead => 0x02#8
  | .crc => 0x03#8
  | .slaveMismatch => 0x04#8
  | .protocolException => 0x05#8
  | .malformed => 0x06#8
  | .capacity => 0x07#8
  | .illegalCmd => 0x08#8

/-- The exception bit, bit 7 of the function byte `RX[1]` (42_decoder.md R158). -/
def excBit (rx : List Byte) : Bool := (byteAt rx 1).getLsbD 7

/-- `xs`, the short exception frame (42_decoder.md R164). -/
def shortExc (p : Params) (rx : List Byte) : Bool := rx.length == 5 && p.excShortFrame && excBit rx

/-- Stage S fails (42_decoder.md R153). -/
def shortRead (p : Params) (e : Nat) (rx : List Byte) : Bool := rx.length < e && !shortExc p rx

/-- Stage (a) fails (42_decoder.md R154). -/
def crcBad (rx : List Byte) : Bool := crc16 (frameBody rx) != trailingCrc rx

/-- Stage (b) fails (42_decoder.md R155). -/
def lengthBad (p : Params) (e : Nat) (rx : List Byte) : Bool := rx.length != e && !shortExc p rx

/-- The stages the two parse commands share, S and (a) to (e), in order (42_decoder.md R152), for a response of expected
length `e` and function code `fc` from slave `slave`. -/
def frameVerdict (p : Params) (e : Nat) (fc slave : Byte) (rx : List Byte) : StatusCode :=
  if shortRead p e rx then .shortRead
  else if crcBad rx then .crc
  else if lengthBad p e rx then .malformed
  else if byteAt rx 0 != slave then .slaveMismatch
  else if excBit rx then .protocolException
  else if byteAt rx 1 != fc then .malformed
  else .ok

/-- Stage (f) (42_decoder.md R160), after the shared stages: the byte count, compared as a natural number (R156). -/
def byteCountVerdict (q : Half) (rx : List Byte) (before : StatusCode) : StatusCode :=
  match before with
  | .ok => if (byteAt rx 2).toNat != 2 * q.toNat then .malformed else .ok
  | c => c

/-- The outcome of PARSE_READ: stage V, the shared stages, stage (f) (42_decoder.md R162). -/
def readVerdict (p : Params) (b : Block) : StatusCode :=
  if qtyOk b.qty then
    byteCountVerdict b.qty b.rx (frameVerdict p (readRespLen b.qty) Config.fcRead b.slave b.rx)
  else .validation

/-- The outcome of PARSE_WRITE: the shared stages against the fixed 8-byte echo (42_decoder.md R163). -/
def writeVerdict (p : Params) (b : Block) : StatusCode :=
  frameVerdict p writeRespLen Config.fcWrite b.slave b.rx

end Sys2Proof.Machine
end

