-- ==== Sys2Proof/Machine/Ops.lean ====
section
/-!
DEFINITION. The named operations over the state: how a command ends, the operations the commands share, and the host's
view of the registers and windows (20_memory.md R53, R54).
-/

namespace Sys2Proof.Machine

/-! ### How a command ends -/

/-- `raise Err(code)` (00_scope.md R10): `STATUS <- code`. This is the one shared operation by which a failure is
reported; the block takes no exception and returns from none (60_exceptions.md R200, R207). -/
def raiseErr (c : StatusCode) (b : Block) : Block := { b with status := c.code }

/-- `finish OK` (00_scope.md R10): `STATUS <- 0x00`. -/
def finishOk (b : Block) : Block := { b with status := StatusCode.ok.code }

/-- The end of a parse command with verdict `v` (42_decoder.md R165, R166): `RESULT` holds `words` on OK and nothing
otherwise, `EXC_CODE` holds `RX[2]` on the stage-(d) exit and 0 otherwise, `STATUS` holds the verdict's code. -/
def finishParse (v : StatusCode) (words : List Half) (b : Block) : Block :=
  { b with
    result := if v = .ok then words else []
    excCode := if v = .protocolException then byteAt b.rx 2 else 0x00#8
    status := v.code }

/-- A command or access has run to its end and left the block as `b` (00_scope.md R11). -/
def State.withBlock (s : State) (b : Block) : State := { s with block := b }

/-- The oldest transaction leaves the port; `rest` is what follows it (20_memory.md R65). -/
def State.withPort (s : State) (rest : List HostEvent) : State := { s with port := rest }

/-- A read returns `v` to the host (20_memory.md R55; log entry 4). -/
def State.reply (s : State) (v : Word) : State := { s with replies := s.replies ++ [v] }

/-! ### The buffers -/

/-- A push appends one byte unless the buffer is at its capacity, tested with `==` as the rules write it
(41_encoder.md R121, 42_decoder.md R151; log entry 8). -/
def pushByte (cap : Nat) (buf : List Byte) (b : Byte) : Option (List Byte) :=
  if buf.length = cap then none else some (buf ++ [b])

/-- The CRC is appended unless two more bytes would not fit (41_encoder.md R122). -/
def pushCrc (cap : Nat) (buf : List Byte) : Option (List Byte) :=
  if buf.length > cap - 2 then none else some (appendCrc buf)

/-! ### The host's view -/

/-- The offset column of 20_memory.md R53. -/
def regOffset : HostReg → Offset
  | .cmd => 0x000#12
  | .status => 0x004#12
  | .slave => 0x008#12
  | .addr => 0x00C#12
  | .qty => 0x010#12
  | .value => 0x014#12
  | .crcAcc => 0x018#12
  | .txLen => 0x01C#12
  | .rxLen => 0x020#12
  | .resultCount => 0x024#12
  | .excCode => 0x028#12
  | .config => 0x02C#12

/-- What an aligned offset selects (20_memory.md R53, R54). -/
def alignedTarget (n : Nat) : HostTarget :=
  match n with
  | 0x000 => .reg .cmd
  | 0x004 => .reg .status
  | 0x008 => .reg .slave
  | 0x00C => .reg .addr
  | 0x010 => .reg .qty
  | 0x014 => .reg .value
  | 0x018 => .reg .crcAcc
  | 0x01C => .reg .txLen
  | 0x020 => .reg .rxLen
  | 0x024 => .reg .resultCount
  | 0x028 => .reg .excCode
  | 0x02C => .reg .config
  | n =>
    if n < 0x400 then .reserved
    else if n < 0x800 then .txBuf ((n - 0x400) / 4)
    else if n < 0xC00 then .rxBuf ((n - 0x800) / 4)
    else if n ≤ 0xDF0 then .resultBuf ((n - 0xC00) / 4)
    else .reserved

/-- What an offset selects: alignment first (20_memory.md R58), then the map. -/
def hostTarget (off : Offset) : HostTarget :=
  if off.extractLsb' 0 2 = 0#2 then alignedTarget off.toNat else .misaligned

/-- `CONFIG`: bit 0 is `EXC_SHORT_FRAME`, every other bit 0 (10_state.md R31). -/
def configWord (p : Params) : Word := if p.excShortFrame then 0x00000001#32 else 0x00000000#32

/-- The read value of a named register (20_memory.md R53). -/
def regValue (p : Params) (b : Block) : HostReg → Word
  | .cmd => 0x00000000#32
  | .status => b.status.setWidth 32
  | .slave => b.slave.setWidth 32
  | .addr => b.addr.setWidth 32
  | .qty => b.qty.setWidth 32
  | .value => b.value
  | .crcAcc => b.crcAcc.setWidth 32
  | .txLen => BitVec.ofNat 32 b.tx.length
  | .rxLen => BitVec.ofNat 32 b.rx.length
  | .resultCount => BitVec.ofNat 32 b.result.length
  | .excCode => b.excCode.setWidth 32
  | .config => configWord p

/-- The value `MemRead(off, 4)` returns (20_memory.md R53 to R55, R58, R59): an element past the current length reads
0. -/
def hostRead (p : Params) (b : Block) (off : Offset) : Word :=
  match hostTarget off with
  | .misaligned => 0x00000000#32
  | .reserved => 0x00000000#32
  | .reg r => regValue p b r
  | .txBuf i => (b.tx.getD i 0x00#8).setWidth 32
  | .rxBuf i => (b.rx.getD i 0x00#8).setWidth 32
  | .resultBuf i => (b.result.getD i 0x0000#16).setWidth 32

/-- A write of `data` to a named register other than `CMD`: an RW register keeps the low bits it holds, a read-only one
ignores the write (20_memory.md R53, R56, R57, R59). -/
def regStore (r : HostReg) (data : Word) (b : Block) : Block :=
  match r with
  | .slave => { b with slave := data.extractLsb' 0 8 }
  | .addr => { b with addr := data.extractLsb' 0 16 }
  | .qty => { b with qty := data.extractLsb' 0 16 }
  | .value => { b with value := data }
  | .cmd => b
  | .status => b
  | .crcAcc => b
  | .txLen => b
  | .rxLen => b
  | .resultCount => b
  | .excCode => b
  | .config => b

/-- The reset input (70_reset_and_hazards.md R230): every piece of state at its reset value. -/
def resetBlock (_ : Block) : Block := Block.reset

end Sys2Proof.Machine
end

