-- ==== Sys2Proof/Machine/Control.lean ====
section
/-!
DEFINITION. The control family: NOP and illegal command words (44_control.md).
-/

namespace Sys2Proof.Machine

/-- NOP (44_control.md R190). -/
def execNop (s : State) : Host.Outcome State Fault Refusal :=
  .next (s.withBlock (finishOk s.block))

/-- An illegal command word (44_control.md R191): `STATUS <- ERR_ILLEGAL_CMD`, nothing else changes, and the block goes
on. -/
def execIllegalWord (s : State) : Host.Outcome State Fault Refusal :=
  .next (s.withBlock (raiseErr .illegalCmd s.block))

end Sys2Proof.Machine
end

