-- ==== Sys2Proof/Machine/Crc.lean ====
section
/-!
DEFINITION. The standalone CRC engine: CRC_INIT and CRC_BYTE (40_crc.md), the only commands that write `CRC_ACC`
(10_state.md R28).
-/

namespace Sys2Proof.Machine

/-- CRC_INIT (40_crc.md R103). -/
def execCrcInit (s : State) : Host.Outcome State Fault Refusal :=
  .next (s.withBlock (finishOk { s.block with crcAcc := Config.crcSeed }))

/-- CRC_BYTE b (40_crc.md R104). -/
def execCrcByte (b : Byte) (s : State) : Host.Outcome State Fault Refusal :=
  .next (s.withBlock (finishOk { s.block with crcAcc := crcStep s.block.crcAcc b }))

end Sys2Proof.Machine
end

