-- ==== Sys2Proof/Machine/Decoder.lean ====
section
/-!
DEFINITION. The response validator and decoder: RX_CLEAR, RX_PUSH, PARSE_READ and PARSE_WRITE (42_decoder.md).
-/

namespace Sys2Proof.Machine

/-- RX_CLEAR (42_decoder.md R150). -/
def execRxClear (s : State) : Host.Outcome State Fault Refusal :=
  .next (s.withBlock (finishOk { s.block with rx := [] }))

/-- RX_PUSH b (42_decoder.md R151). -/
def execRxPush (b : Byte) (s : State) : Host.Outcome State Fault Refusal :=
  match pushByte Config.rxCap s.block.rx b with
  | none => .next (s.withBlock (raiseErr .capacity s.block))
  | some rx => .next (s.withBlock (finishOk { s.block with rx := rx }))

/-- PARSE_READ (42_decoder.md R162): the stages, then `RESULT` (R161, R166) and `EXC_CODE` (R165). The operand registers
are read as they are now (R168). -/
def execParseRead (s : State) : Host.Outcome State Fault Refusal :=
  .next (s.withBlock (finishParse (readVerdict s.params s.block)
    (decodeWords s.block.rx s.block.qty.toNat) s.block))

/-- PARSE_WRITE (42_decoder.md R163): `RESULT` is always emptied; `ADDR` and `VALUE` are not read (R167). -/
def execParseWrite (s : State) : Host.Outcome State Fault Refusal :=
  .next (s.withBlock (finishParse (writeVerdict s.params s.block) [] s.block))

end Sys2Proof.Machine
end

