-- ==== Sys2Proof/Machine/Encoder.lean ====
section
/-!
DEFINITION. The request encoder: TX_CLEAR, TX_PUSH, TX_APPEND_CRC, BUILD_READ and BUILD_WRITE (41_encoder.md).
-/

namespace Sys2Proof.Machine

/-- TX_CLEAR (41_encoder.md R120). -/
def execTxClear (s : State) : Host.Outcome State Fault Refusal :=
  .next (s.withBlock (finishOk { s.block with tx := [] }))

/-- TX_PUSH b (41_encoder.md R121). -/
def execTxPush (b : Byte) (s : State) : Host.Outcome State Fault Refusal :=
  match pushByte Config.txCap s.block.tx b with
  | none => .next (s.withBlock (raiseErr .capacity s.block))
  | some tx => .next (s.withBlock (finishOk { s.block with tx := tx }))

/-- TX_APPEND_CRC (41_encoder.md R122). -/
def execTxAppendCrc (s : State) : Host.Outcome State Fault Refusal :=
  match pushCrc Config.txCap s.block.tx with
  | none => .next (s.withBlock (raiseErr .capacity s.block))
  | some tx => .next (s.withBlock (finishOk { s.block with tx := tx }))

/-- BUILD_READ (41_encoder.md R124, R125, R128). On ERR_VALIDATION `RESULT` stays as it was, as R124 and 44_control.md
R195 say; DEDUCED: they are followed against the plainest reading of 70_reset_and_hazards.md R238's `RESULT_COUNT = 0`,
which no ruling settles (log entry 16). -/
def execBuildRead (s : State) : Host.Outcome State Fault Refusal :=
  if qtyOk s.block.qty then
    .next (s.withBlock (finishOk
      { s.block with tx := request s.block.slave Config.fcRead s.block.addr s.block.qty, rx := [] }))
  else
    .next (s.withBlock (raiseErr .validation { s.block with tx := [] }))

/-- BUILD_WRITE (41_encoder.md R126 to R128). -/
def execBuildWrite (s : State) : Host.Outcome State Fault Refusal :=
  .next (s.withBlock (finishOk
    { s.block with tx := request s.block.slave Config.fcWrite s.block.addr (writeValue s.block.value), rx := [] }))

end Sys2Proof.Machine
end

