-- ==== Sys2Proof/Machine/Dispatch.lean ====
section
/-! DEFINITION. One arm per command of 30_encoding.md R83. -/

namespace Sys2Proof.Machine

def exec (i : Instr) (s : State) : Host.Outcome State Fault Refusal :=
  match i with
  | .nop => Sys2Proof.Machine.execNop s
  | .crcInit => Sys2Proof.Machine.execCrcInit s
  | .crcByte b => Sys2Proof.Machine.execCrcByte b s
  | .txClear => Sys2Proof.Machine.execTxClear s
  | .txPush b => Sys2Proof.Machine.execTxPush b s
  | .txAppendCrc => Sys2Proof.Machine.execTxAppendCrc s
  | .buildRead => Sys2Proof.Machine.execBuildRead s
  | .buildWrite => Sys2Proof.Machine.execBuildWrite s
  | .rxClear => Sys2Proof.Machine.execRxClear s
  | .rxPush b => Sys2Proof.Machine.execRxPush b s
  | .parseRead => Sys2Proof.Machine.execParseRead s
  | .parseWrite => Sys2Proof.Machine.execParseWrite s

end Sys2Proof.Machine
end

