-- ==== Sys2Proof/Machine/Port.lean ====
section
/-!
DEFINITION. The host port: what one transaction does (20_memory.md R53 to R61, 30_encoding.md R82,
70_reset_and_hazards.md R230). Each definition takes the state from which the transaction has already left the port.
-/

namespace Sys2Proof.Machine

/-- A word is written to `CMD` (30_encoding.md R82): a legal word runs its command, any other runs 44_control.md
R191. -/
def runCommandWord (w : Word) (s : State) : Host.Outcome State Fault Refusal :=
  match decode w with
  | .instr i => exec i s
  | .illegal _ => execIllegalWord s

/-- `MemRead(off, 4)` (20_memory.md R55): the value goes to the host, the block does not change (R60). -/
def hostReadAccess (off : Offset) (s : State) : Host.Outcome State Fault Refusal :=
  .next (s.reply (hostRead s.params s.block off))

/-- `MemWrite(off, 4, data)` (20_memory.md R56): `CMD` runs a command, an RW register stores its bits; a misaligned
(R58), reserved or read-only (R59) offset ignores the write. -/
def hostWriteAccess (off : Offset) (data : Word) (s : State) : Host.Outcome State Fault Refusal :=
  match hostTarget off with
  | .reg .cmd => runCommandWord data s
  | .reg r => .next (s.withBlock (regStore r data s.block))
  | .misaligned => .next s
  | .reserved => .next s
  | .txBuf _ => .next s
  | .rxBuf _ => .next s
  | .resultBuf _ => .next s

/-- The reset input (70_reset_and_hazards.md R230, R231): the block is reset; the parameter is a constant, and what the
host still has to present and has been told is the host's (log entry 5). -/
def hostReset (s : State) : Host.Outcome State Fault Refusal :=
  .next (s.withBlock (resetBlock s.block))

/-- One transaction. -/
def performEvent (e : HostEvent) (s : State) : Host.Outcome State Fault Refusal :=
  match e with
  | .read off => hostReadAccess off s
  | .write off data => hostWriteAccess off data s
  | .reset => hostReset s

/-- No transaction is presented: the block waits (10_state.md R20, 70_reset_and_hazards.md R232). -/
def waitForHost (s : State) : Host.Outcome State Fault Refusal := .next s

/-- The transaction that runs the command word `w`: a write of `w` to `CMD` (30_encoding.md R80). -/
def commandEvent (w : Word) : HostEvent := .write (regOffset .cmd) w

end Sys2Proof.Machine
end

