-- ==== Sys2Proof/Machine/Asm.lean ====
section
/-!
DEFINITION. The assembler of 30_encoding.md R91 and R92: each statement is one host transaction, each pseudo-instruction
a list of statements. None adds any behaviour of its own.
-/

namespace Sys2Proof.Machine

/-- The transaction of a statement (30_encoding.md R91). -/
def asmEvent : AsmLine → HostEvent
  | .command i => commandEvent (encode i)
  | .word w => commandEvent w
  | .wr r v => .write (regOffset r) v
  | .rd r => .read (regOffset r)
  | .rdtx i => .read (BitVec.ofNat 12 (0x400 + 4 * i))
  | .rdrx i => .read (BitVec.ofNat 12 (0x800 + 4 * i))
  | .rdres i => .read (BitVec.ofNat 12 (0xC00 + 4 * i))

/-- The transactions of a list of statements, in order. -/
def asmEvents (lines : List AsmLine) : List HostEvent := lines.map asmEvent

/-- The expansion of a pseudo-instruction (30_encoding.md R92). -/
def expand : Pseudo → List AsmLine
  | .crc16 bytes => .command .crcInit :: bytes.map fun b => .command (.crcByte b)
  | .txFrame bytes => .command .txClear :: bytes.map fun b => .command (.txPush b)
  | .rxFrame bytes => .command .rxClear :: bytes.map fun b => .command (.rxPush b)
  | .readReq s a q => [.wr .slave s, .wr .addr a, .wr .qty q, .command .buildRead]
  | .writeReq s a v => [.wr .slave s, .wr .addr a, .wr .value v, .command .buildWrite]

end Sys2Proof.Machine
end

