-- ==== Sys2Proof/Machine/Step.lean ====
section
/-!
DEFINITION. One step of the machine performs the oldest transaction at the host port (20_memory.md R65); with none
there, the block waits (70_reset_and_hazards.md R232). Log entry 3 says how a program comes to run.
-/

namespace Sys2Proof.Machine

/-- One step (20_memory.md R65, 00_scope.md R11). -/
def step (s : State) : Host.Outcome State Fault Refusal :=
  match s.port with
  | [] => waitForHost s
  | e :: rest => performEvent e (s.withPort rest)

/-- `s` with a write of the command word to `CMD` presented first at the port, so that the very next step runs exactly
that word (log entry 3). -/
def State.withFetchWord (s : State) (nbits w : Nat) : State :=
  s.withPort (commandEvent (tableWord nbits w) :: s.port)

end Sys2Proof.Machine
end

