-- ==== Sys2Proof/Safety.lean ====
section
/-!
DEFINITION. What a good state is (10_state.md R33 and the promises of R165, R166 and 60_exceptions.md R201), and what a
safe run is.
-/

namespace Sys2Proof.Machine

/-- The invariant of the block: the three length bounds of 10_state.md R33, `STATUS` one of the codes of
60_exceptions.md R201, and no exception code beside a decoded result (42_decoder.md R165, R166: one parse writes
both). -/
structure Block.Inv (b : Block) : Prop where
  txLen : b.tx.length ≤ 256
  rxLen : b.rx.length ≤ 256
  resultLen : b.result.length ≤ 125
  status : b.status.toNat ≤ 8
  excNoResult : b.excCode ≠ 0x00#8 → b.result = []

/-- The invariant of the machine. -/
def State.Inv (s : State) : Prop := s.block.Inv

/-- `t` is reached from `s` in `k` steps, none of which stops. -/
def Reaches (k : Nat) (s t : State) : Prop := Host.Core.run Sys2Proof.core k s = .next t

/-- A run is safe when it stops at no step: no fault, no refusal (60_exceptions.md R200). -/
def RunsSafely (s : State) : Prop := ∀ k, ∃ t, Reaches k s t

end Sys2Proof.Machine
end

