-- ==== Sys2Proof/Certificates/Slice0/Obligations.lean ====
section
/-!
DEFINITION. The statements for the provers. Each says which rule of spec/ it formalises; numbers, byte layouts and
conditions are written out from the spec's text and not through the model's own definitions, except for the functions the
spec itself names (`crcStep`, `crc16`).
-/

open Sys2Proof Sys2Proof.Machine

namespace Sys2Proof.Statements

/-- The opcode map with its match and mask columns (30_encoding.md R82, R83). -/
def opcodeRows : List (String × Word × Word) :=
  [("NOP", 0x00000000#32, 0xFFFFFFFF#32), ("CRC_INIT", 0x00000001#32, 0xFFFFFFFF#32),
   ("CRC_BYTE", 0x00000002#32, 0xFFFF00FF#32), ("TX_CLEAR", 0x00000010#32, 0xFFFFFFFF#32),
   ("TX_PUSH", 0x00000011#32, 0xFFFF00FF#32), ("TX_APPEND_CRC", 0x00000012#32, 0xFFFFFFFF#32),
   ("BUILD_READ", 0x00000020#32, 0xFFFFFFFF#32), ("BUILD_WRITE", 0x00000021#32, 0xFFFFFFFF#32),
   ("RX_CLEAR", 0x00000030#32, 0xFFFFFFFF#32), ("RX_PUSH", 0x00000031#32, 0xFFFF00FF#32),
   ("PARSE_READ", 0x00000040#32, 0xFFFFFFFF#32), ("PARSE_WRITE", 0x00000041#32, 0xFFFFFFFF#32)]

/-- A frame's payload followed by its CRC, low byte first (30_encoding.md R85, 40_crc.md R102). -/
def framed (p : List Byte) : List Byte := p ++ [(crc16 p).extractLsb' 0 8, (crc16 p).extractLsb' 8 8]

/-- The bytes of a frame carry a valid CRC (40_crc.md R102): its last two bytes, low then high, are the CRC of all the
others. -/
def CrcValid (f : List Byte) : Prop := ∃ p, f = framed p

/-- The normal response to function 0x03 carrying the register values `ws` (30_encoding.md R88). -/
def readResponse (slave : Byte) (ws : List Half) : List Byte :=
  framed ([slave, 0x03#8, BitVec.ofNat 8 (2 * ws.length)] ++
    ws.flatMap fun w => [w.extractLsb' 8 8, w.extractLsb' 0 8])

/-- Bit `k` of byte `j` of a frame flipped (40_crc.md R107). -/
def flipBit (f : List Byte) (j k : Nat) : List Byte := f.set j (f.getD j 0#8 ^^^ BitVec.twoPow 8 k)

/-- The short-exception condition `xs` (42_decoder.md R164). -/
def Xs (s : State) : Prop :=
  s.params.excShortFrame = true ∧ s.block.rx.length = 5 ∧ (s.block.rx.getD 1 0#8).getLsbD 7 = true

/-- The status codes each command may report (the Raised by column of 60_exceptions.md R201). -/
def statusCodes : Instr → List Byte
  | .nop => [0x00#8]
  | .crcInit => [0x00#8]
  | .crcByte _ => [0x00#8]
  | .txClear => [0x00#8]
  | .txPush _ => [0x00#8, 0x07#8]
  | .txAppendCrc => [0x00#8, 0x07#8]
  | .buildRead => [0x00#8, 0x01#8]
  | .buildWrite => [0x00#8]
  | .rxClear => [0x00#8]
  | .rxPush _ => [0x00#8, 0x07#8]
  | .parseRead => [0x00#8, 0x01#8, 0x02#8, 0x03#8, 0x04#8, 0x05#8, 0x06#8]
  | .parseWrite => [0x00#8, 0x02#8, 0x03#8, 0x04#8, 0x05#8, 0x06#8]

end Sys2Proof.Statements

open Sys2Proof.Statements

/-! ### Encoding -/

/-- 30_encoding.md R80 to R84, R91: the decoder reads a command from a word exactly when the word is that command's
encoding, for every word and every command with every operand. -/
def Obligations.DecodeIffEncode : Prop :=
  ∀ (w : Word) (i : Instr), decode w = .instr i ↔ encode i = w

/-- 30_encoding.md R82, whole: the three conditions of legality, the match/mask form, no word in two rows, the row names
the command, and what the write of a legal and of an illegal word to CMD runs. -/
def Obligations.CommandDecodingRule : Prop :=
  ∀ w : Word,
    ((∃ i, decode w = .instr i) ↔
      w.extractLsb' 16 16 = 0x0000#16 ∧
        ∃ row ∈ opcodeRows, w.extractLsb' 0 8 = row.2.1.extractLsb' 0 8 ∧
          (row.2.2 = 0xFFFFFFFF#32 → w.extractLsb' 8 8 = 0x00#8)) ∧
    ((∃ i, decode w = .instr i) ↔ ∃ row ∈ opcodeRows, w &&& row.2.2 = row.2.1) ∧
    (∀ row ∈ opcodeRows, ∀ row' ∈ opcodeRows, w &&& row.2.2 = row.2.1 → w &&& row'.2.2 = row'.2.1 → row = row') ∧
    (∀ row ∈ opcodeRows, w &&& row.2.2 = row.2.1 →
      ∃ i, decode w = .instr i ∧ i.mnemonic = row.1 ∧
        ∀ s : State, performEvent (.write 0x000#12 w) s = exec i s) ∧
    ((∀ row ∈ opcodeRows, w &&& row.2.2 ≠ row.2.1) →
      ∀ s : State, performEvent (.write 0x000#12 w) s = .next { s with block := { s.block with status := 0x08#8 } })

/-- 30_encoding.md R83: words written out from the opcode map decode to their commands. -/
def Obligations.OpcodeMapWords : Prop :=
  decode 0x00000000#32 = .instr .nop ∧
  decode 0x00000001#32 = .instr .crcInit ∧
  decode 0x00004102#32 = .instr (.crcByte 0x41#8) ∧
  decode 0x00000010#32 = .instr .txClear ∧
  decode 0x0000FF11#32 = .instr (.txPush 0xFF#8) ∧
  decode 0x00000012#32 = .instr .txAppendCrc ∧
  decode 0x00000020#32 = .instr .buildRead ∧
  decode 0x00000021#32 = .instr .buildWrite ∧
  decode 0x00000030#32 = .instr .rxClear ∧
  decode 0x0000C431#32 = .instr (.rxPush 0xC4#8) ∧
  decode 0x00000040#32 = .instr .parseRead ∧
  decode 0x00000041#32 = .instr .parseWrite

/-- 30_encoding.md R82, 20_memory.md R56: when the next transaction writes a word to CMD and the word decodes to `i`,
the step is `exec i` on the state from which that transaction has left the port (the port is the model's, log
entry 3). -/
def Obligations.StepRunsDecodedCommand : Prop :=
  ∀ (s : State) (rest : List HostEvent) (w : Word) (i : Instr),
    s.port = .write 0x000#12 w :: rest → decode w = .instr i → step s = exec i { s with port := rest }

/-- 44_control.md R191, whole: an illegal word changes STATUS alone, to 0x08, and the block goes on; the rule's three
examples are illegal words. -/
def Obligations.IllegalWordRule : Prop :=
  (∀ (s : State) (w : Word), (∀ i, decode w ≠ .instr i) →
    performEvent (.write 0x000#12 w) s = .next { s with block := { s.block with status := 0x08#8 } }) ∧
  (∀ i, decode 0x00000013#32 ≠ .instr i) ∧ (∀ i, decode 0x00000110#32 ≠ .instr i) ∧
  (∀ i, decode 0x00010002#32 ≠ .instr i)

/-! ### Reset, invariant, steps -/

/-- 70_reset_and_hazards.md R230, whole: the state after reset, and the reset input from any state; CONFIG reads as
before. -/
def Obligations.ResetRule : Prop :=
  let fresh : Block :=
    { slave := 0x00#8, addr := 0x0000#16, qty := 0x0000#16, value := 0x00000000#32, crcAcc := 0xFFFF#16
      status := 0x00#8, excCode := 0x00#8, tx := [], rx := [], result := [] }
  State.reset.block = fresh ∧
  ∀ s : State, ∃ t, performEvent .reset s = .next t ∧ t.block = fresh ∧
    hostRead t.params t.block 0x02C#12 = hostRead s.params s.block 0x02C#12

/-- 10_state.md R33 (and R165, R166, R201): the invariant holds after reset, for either value of the parameter. -/
def Obligations.InvariantAtReset : Prop :=
  State.reset = State.resetWith { excShortFrame := false } ∧ ∀ p : Params, (State.resetWith p).Inv

/-- 10_state.md R33 (and R165, R166, R201): from every state with the invariant, a step answers a state with it: the
length bounds of TX, RX and RESULT, STATUS one of the nine codes, no exception code beside a result. -/
def Obligations.StepKeepsInvariant : Prop :=
  ∀ s : State, s.Inv → ∃ t, step s = .next t ∧ t.Inv

/-- 60_exceptions.md R200: nothing stops the block; every run of any length from any state goes on, and no step changes
the parameter (10_state.md R31). -/
def Obligations.NothingStopsTheBlock : Prop :=
  ∀ (s : State) (k : Nat), ∃ t, Reaches k s t ∧ t.params = s.params

/-- 70_reset_and_hazards.md R232: with no transaction at the port the block waits (log entry 3). -/
def Obligations.WaitsForHost : Prop :=
  ∀ s : State, s.port = [] → step s = .next s

/-- 20_memory.md R65: a step performs the oldest transaction of the port and no other, on the state that every earlier one
left; a read returns one value and anything else none (the port and the replies are the model's, log entries 3 and
4). -/
def Obligations.TransactionsInOrder : Prop :=
  ∀ (s : State) (e : HostEvent) (rest : List HostEvent), s.port = e :: rest →
    step s = performEvent e { s with port := rest } ∧
    ∃ t vs, step s = .next t ∧ t.port = rest ∧ t.replies = s.replies ++ vs ∧
      (∀ off, e = .read off → vs = [hostRead s.params s.block off]) ∧ ((∀ off, e ≠ .read off) → vs = [])

/-! ### The host's view -/

/-- 20_memory.md R55: a read returns the read value of the offset in the state it is performed in, and changes no state
of the block (the value is appended to the replies, the model's choice of log entry 4). -/
def Obligations.ReadAccess : Prop :=
  ∀ (s : State) (off : Offset),
    performEvent (.read off) s = .next { s with replies := s.replies ++ [hostRead s.params s.block off] }

/-- 20_memory.md R53, the Read value column of the twelve named registers. -/
def Obligations.RegisterMapReads : Prop :=
  ∀ (p : Params) (b : Block),
    hostRead p b 0x000#12 = 0x00000000#32 ∧
    hostRead p b 0x004#12 = b.status.zeroExtend 32 ∧
    hostRead p b 0x008#12 = b.slave.zeroExtend 32 ∧
    hostRead p b 0x00C#12 = b.addr.zeroExtend 32 ∧
    hostRead p b 0x010#12 = b.qty.zeroExtend 32 ∧
    hostRead p b 0x014#12 = b.value ∧
    hostRead p b 0x018#12 = b.crcAcc.zeroExtend 32 ∧
    hostRead p b 0x01C#12 = BitVec.ofNat 32 b.tx.length ∧
    hostRead p b 0x020#12 = BitVec.ofNat 32 b.rx.length ∧
    hostRead p b 0x024#12 = BitVec.ofNat 32 b.result.length ∧
    hostRead p b 0x028#12 = b.excCode.zeroExtend 32 ∧
    hostRead p b 0x02C#12 = if p.excShortFrame then 0x00000001#32 else 0x00000000#32

/-- 20_memory.md R54, whole: one element per word, 0 past the current length, in each of the three windows. -/
def Obligations.WindowReads : Prop :=
  ∀ (p : Params) (b : Block) (i : Nat),
    (i ≤ 255 → hostRead p b (BitVec.ofNat 12 (0x400 + 4 * i)) =
      if h : i < b.tx.length then (b.tx[i]).zeroExtend 32 else 0x00000000#32) ∧
    (i ≤ 255 → hostRead p b (BitVec.ofNat 12 (0x800 + 4 * i)) =
      if h : i < b.rx.length then (b.rx[i]).zeroExtend 32 else 0x00000000#32) ∧
    (i ≤ 124 → hostRead p b (BitVec.ofNat 12 (0xC00 + 4 * i)) =
      if h : i < b.result.length then (b.result[i]).zeroExtend 32 else 0x00000000#32)

/-- 10_state.md R31, whole: CONFIG bit 0 is EXC_SHORT_FRAME, the others read 0, and no command, reset or other transaction
changes it. -/
def Obligations.ConfigRule : Prop :=
  (∀ (p : Params) (b : Block),
    (hostRead p b 0x02C#12).getLsbD 0 = p.excShortFrame ∧ (hostRead p b 0x02C#12) >>> 1 = 0x00000000#32) ∧
  (∀ (i : Instr) (s : State), ∃ t, exec i s = .next t ∧
    hostRead t.params t.block 0x02C#12 = hostRead s.params s.block 0x02C#12) ∧
  ∀ (e : HostEvent) (s : State), ∃ t, performEvent e s = .next t ∧
    hostRead t.params t.block 0x02C#12 = hostRead s.params s.block 0x02C#12

/-- 44_control.md R194, whole (with the widths of 20_memory.md R53 and R57): a write to an operand register keeps the low
bits the register holds and changes nothing else, STATUS included; a read changes nothing of the block. -/
def Obligations.OperandWrites : Prop :=
  ∀ s : State,
    (∀ data : Word,
      performEvent (.write 0x008#12 data) s =
        .next { s with block := { s.block with slave := data.extractLsb' 0 8 } } ∧
      performEvent (.write 0x00C#12 data) s =
        .next { s with block := { s.block with addr := data.extractLsb' 0 16 } } ∧
      performEvent (.write 0x010#12 data) s =
        .next { s with block := { s.block with qty := data.extractLsb' 0 16 } } ∧
      performEvent (.write 0x014#12 data) s = .next { s with block := { s.block with value := data } }) ∧
    ∀ off : Offset, ∃ t, performEvent (.read off) s = .next t ∧ t.block = s.block

/-- 20_memory.md R58: a misaligned read returns 0 and a misaligned write is ignored; neither changes any state of the
block, and neither stops it (the rule's allowance to refuse is not taken, log entry 10). -/
def Obligations.MisalignedAccess : Prop :=
  ∀ (s : State) (off : Offset) (data : Word), off.extractLsb' 0 2 ≠ 0#2 →
    hostRead s.params s.block off = 0x00000000#32 ∧
    (∃ t, performEvent (.read off) s = .next t ∧ t.block = s.block) ∧
    performEvent (.write off data) s = .next s

/-- 20_memory.md R59, whole, over the offsets R53 marks reserved (0x030 to 0x3FC, 0xDF4 to 0xFFC), read-only (0x004, 0x018
to 0x02C) and windows (0x400 to 0xDF0). -/
def Obligations.ReservedAndReadOnly : Prop :=
  ∀ (s : State) (off : Offset) (data : Word), off.toNat % 4 = 0 →
    ((0x030 ≤ off.toNat ∧ off.toNat ≤ 0x3FC) ∨ 0xDF4 ≤ off.toNat →
      hostRead s.params s.block off = 0x00000000#32 ∧
      ∃ t, performEvent (.read off) s = .next t ∧ t.block = s.block) ∧
    (off.toNat = 0x004 ∨ 0x018 ≤ off.toNat → performEvent (.write off data) s = .next s)

/-- 20_memory.md R61, whole: a read of CMD returns 0 and runs nothing; no transaction but a write to offset 0x000 runs a
command (whatever else a host access does, it leaves all the registers that commands write). -/
def Obligations.OnlyCmdWritesRunCommands : Prop :=
  (∀ s : State, hostRead s.params s.block 0x000#12 = 0x00000000#32 ∧
    ∃ t, performEvent (.read 0x000#12) s = .next t ∧ t.block = s.block) ∧
  ∀ (s : State) (e : HostEvent), e ≠ .reset → (∀ data, e ≠ .write 0x000#12 data) →
    ∃ t, performEvent e s = .next t ∧ t.block = { t.block with
      crcAcc := s.block.crcAcc, status := s.block.status, excCode := s.block.excCode
      tx := s.block.tx, rx := s.block.rx, result := s.block.result }

/-- 20_memory.md R60, whole: no read has a side effect, so a repeated read returns the same value; repeating a write to an
RW register changes nothing more; repeating a write to CMD can. -/
def Obligations.ReadsAndWritesIdempotent : Prop :=
  (∀ (s : State) (off : Offset), ∃ t, performEvent (.read off) s = .next t ∧ t.block = s.block ∧
    ∀ off', hostRead t.params t.block off' = hostRead s.params s.block off') ∧
  (∀ (s : State) (off : Offset) (data : Word), off ∈ [0x008#12, 0x00C#12, 0x010#12, 0x014#12] →
    ∃ t, performEvent (.write off data) s = .next t ∧ performEvent (.write off data) t = .next t) ∧
  ∃ (s t u : State) (data : Word), performEvent (.write 0x000#12 data) s = .next t ∧
    performEvent (.write 0x000#12 data) t = .next u ∧ u.block ≠ t.block

/-! ### The CRC engine -/

/-- 40_crc.md R100, whole: the byte is XORed into the low 8 bits, then eight times a logical shift right by one, XORed
with 0xA001 when the bit shifted out is 1. -/
def Obligations.CrcStepRule : Prop :=
  ∀ (acc : Half) (b : Byte),
    crcStep acc b =
      (fun a : Half => if a.getLsbD 0 then (a >>> 1) ^^^ 0xA001#16 else a >>> 1)^[8] (acc ^^^ b.zeroExtend 16)

/-- 40_crc.md R101, whole: the fold of crcStep from the seed, defined for every length, with no final XOR. -/
def Obligations.Crc16Rule : Prop :=
  crc16 [] = 0xFFFF#16 ∧ ∀ (s : List Byte) (b : Byte), crc16 (s ++ [b]) = crcStep (crc16 s) b

/-- 40_crc.md R103, whole: CRC_INIT's effect and frame, its word, and that any other word with OP 0x01 is illegal. -/
def Obligations.CrcInitRule : Prop :=
  (∀ s : State, exec .crcInit s = .next { s with block := { s.block with crcAcc := 0xFFFF#16, status := 0x00#8 } }) ∧
  encode .crcInit = 0x00000001#32 ∧ decode 0x00000001#32 = .instr .crcInit ∧
  ∀ w : Word, w.extractLsb' 0 8 = 0x01#8 → w ≠ 0x00000001#32 → ∀ i, decode w ≠ .instr i

/-- 40_crc.md R104: CRC_BYTE's effect and frame, its word, and the rule's worked values. -/
def Obligations.CrcByteEffect : Prop :=
  (∀ (s : State) (b : Byte),
    exec (.crcByte b) s =
      .next { s with block := { s.block with crcAcc := crcStep s.block.crcAcc b, status := 0x00#8 } }) ∧
  (∀ b : Byte, encode (.crcByte b) = ((b.zeroExtend 32) <<< 8) ||| 0x02#32) ∧
  crcStep 0xFFFF#16 0x00#8 = 0x40BF#16 ∧ crcStep 0x0000#16 0x00#8 = 0x0000#16 ∧ crcStep 0xFFFF#16 0x01#8 = 0x807E#16

/-- 40_crc.md R104: for a fixed byte, crcStep is a bijection on the accumulator values; and (by the linearity the rule
rests on) for a fixed accumulator no two bytes give the same result. -/
def Obligations.CrcStepBijective : Prop :=
  (∀ b : Byte, Function.Bijective fun acc : Half => crcStep acc b) ∧
  (∀ acc : Half, Function.Injective fun b : Byte => crcStep acc b)

/-- 40_crc.md R106, whole: the residue of one step pair for every 16-bit value, and of every byte sequence with its own
CRC appended. -/
def Obligations.CrcResidue : Prop :=
  (∀ c : Half, crcStep (crcStep c (c.extractLsb' 0 8)) (c.extractLsb' 8 8) = 0x0000#16) ∧
  ∀ s : List Byte, crc16 (s ++ [(crc16 s).extractLsb' 0 8, (crc16 s).extractLsb' 8 8]) = 0x0000#16

/-- 40_crc.md R107, whole: the round trip of appendCrc for every sequence, and that flipping any single bit of a response
of the expected length with a valid CRC makes either parse report ERR_CRC, at every length. -/
def Obligations.CrcProtectsResponses : Prop :=
  (∀ q : List Byte,
    crc16 ((appendCrc q).take ((appendCrc q).length - 2)) =
      (((appendCrc q).getD ((appendCrc q).length - 1) 0#8).zeroExtend 16 <<< 8) |||
        ((appendCrc q).getD ((appendCrc q).length - 2) 0#8).zeroExtend 16) ∧
  ∀ (s : State) (j k : Nat), CrcValid s.block.rx → j < s.block.rx.length → k < 8 →
    (1 ≤ s.block.qty.toNat → s.block.qty.toNat ≤ 125 → s.block.rx.length = 5 + 2 * s.block.qty.toNat →
      ∃ t, exec .parseRead { s with block := { s.block with rx := flipBit s.block.rx j k } } = .next t ∧
        t.block.status = 0x03#8) ∧
    (s.block.rx.length = 8 →
      ∃ t, exec .parseWrite { s with block := { s.block with rx := flipBit s.block.rx j k } } = .next t ∧
        t.block.status = 0x03#8)

/-- 40_crc.md R105, whole: the five frame commands neither read nor write CRC_ACC: with any other accumulator the same
next state, that accumulator kept. -/
def Obligations.FrameCommandsKeepCrcAcc : Prop :=
  ∀ i ∈ [Instr.txAppendCrc, .buildRead, .buildWrite, .parseRead, .parseWrite], ∀ s : State,
    ∃ t, exec i s = .next t ∧ t.block.crcAcc = s.block.crcAcc ∧
      ∀ c : Half, exec i { s with block := { s.block with crcAcc := c } } =
        .next { t with block := { t.block with crcAcc := c } }

/-! ### The request encoder -/

/-- 41_encoder.md R120, whole: TX_CLEAR's effect and frame, its word, and that every TXBUF word then reads 0. -/
def Obligations.TxClearRule : Prop :=
  encode .txClear = 0x00000010#32 ∧
  ∀ s : State,
    exec .txClear s = .next { s with block := { s.block with tx := [], status := 0x00#8 } } ∧
    ∀ i ≤ 255, hostRead s.params { s.block with tx := [], status := 0x00#8 } (BitVec.ofNat 12 (0x400 + 4 * i)) =
      0x00000000#32

/-- 41_encoder.md R121: TX_PUSH's two exits, each with its frame, and its word. -/
def Obligations.TxPushEffect : Prop :=
  (∀ (s : State) (b : Byte),
    (s.block.tx.length ≠ 256 →
      exec (.txPush b) s = .next { s with block := { s.block with tx := s.block.tx ++ [b], status := 0x00#8 } }) ∧
    (s.block.tx.length = 256 →
      exec (.txPush b) s = .next { s with block := { s.block with status := 0x07#8 } })) ∧
  ∀ b : Byte, encode (.txPush b) = ((b.zeroExtend 32) <<< 8) ||| 0x11#32

/-- 41_encoder.md R122, whole: TX_APPEND_CRC's two exits, its word, the empty frame, and the second append. -/
def Obligations.TxAppendCrcRule : Prop :=
  encode .txAppendCrc = 0x00000012#32 ∧
  (∀ s : State,
    (s.block.tx.length ≤ 254 →
      exec .txAppendCrc s = .next { s with block := { s.block with
        tx := s.block.tx ++ [(crc16 s.block.tx).extractLsb' 0 8, (crc16 s.block.tx).extractLsb' 8 8]
        status := 0x00#8 } }) ∧
    (255 ≤ s.block.tx.length →
      exec .txAppendCrc s = .next { s with block := { s.block with status := 0x07#8 } })) ∧
  (∀ s : State, s.block.tx = [] →
    ∃ t, exec .txAppendCrc s = .next t ∧ t.block.tx = [0xFF#8, 0xFF#8]) ∧
  (∀ s : State, s.block.tx.length ≤ 252 →
    ∃ t u, exec .txAppendCrc s = .next t ∧ exec .txAppendCrc t = .next u ∧
      u.block.tx = t.block.tx ++ [0x00#8, 0x00#8]) ∧
  ∀ s : State, s.block.tx = [0x01#8, 0x03#8, 0x00#8, 0x00#8, 0x00#8, 0x0A#8] →
    ∃ t, exec .txAppendCrc s = .next t ∧
      t.block.tx = [0x01#8, 0x03#8, 0x00#8, 0x00#8, 0x00#8, 0x0A#8, 0xC5#8, 0xCD#8]

/-- 41_encoder.md R124, R128 and 30_encoding.md R86: BUILD_READ's two exits with the request's bytes written out, and
their frames. -/
def Obligations.BuildReadEffect : Prop :=
  encode .buildRead = 0x00000020#32 ∧
  ∀ s : State,
    (1 ≤ s.block.qty.toNat → s.block.qty.toNat ≤ 125 →
      exec .buildRead s = .next { s with block := { s.block with
        tx := framed [s.block.slave, 0x03#8, s.block.addr.extractLsb' 8 8, s.block.addr.extractLsb' 0 8,
          s.block.qty.extractLsb' 8 8, s.block.qty.extractLsb' 0 8]
        rx := [], status := 0x00#8 } }) ∧
    (s.block.qty.toNat = 0 ∨ 125 < s.block.qty.toNat →
      exec .buildRead s = .next { s with block := { s.block with tx := [], status := 0x01#8 } })

/-- 41_encoder.md R127, R128 and 30_encoding.md R87: BUILD_WRITE's effect with the request's bytes written out, and its
frame. -/
def Obligations.BuildWriteEffect : Prop :=
  encode .buildWrite = 0x00000021#32 ∧
  ∀ s : State,
    exec .buildWrite s = .next { s with block := { s.block with
      tx := framed [s.block.slave, 0x06#8, s.block.addr.extractLsb' 8 8, s.block.addr.extractLsb' 0 8,
        s.block.value.extractLsb' 8 8, s.block.value.extractLsb' 0 8]
      rx := [], status := 0x00#8 } }

/-- 41_encoder.md R125, whole: both BUILD_READ and PARSE_READ report ERR_VALIDATION exactly outside 1 to 125, QTY read as
an unsigned number. -/
def Obligations.QuantityBounds : Prop :=
  ∀ i ∈ [Instr.buildRead, .parseRead], ∀ s : State,
    ∃ t, exec i s = .next t ∧ (t.block.status = 0x01#8 ↔ ¬ (1 ≤ s.block.qty.toNat ∧ s.block.qty.toNat ≤ 125))

/-- 41_encoder.md R126, whole: the write request takes VALUE modulo 2^16, the upper half never matters nor fails, and the
register keeps all 32 bits. -/
def Obligations.WriteValueMasked : Prop :=
  ∀ (s : State) (v : Word), v.toNat % 2 ^ 16 = s.block.value.toNat % 2 ^ 16 →
    ∃ t u, exec .buildWrite s = .next t ∧
      exec .buildWrite { s with block := { s.block with value := v } } = .next u ∧
      t.block.status = 0x00#8 ∧ u.block.status = 0x00#8 ∧ u.block.tx = t.block.tx ∧
      t.block.value = s.block.value ∧ u.block.value = v ∧
      (t.block.tx.getD 4 0#8).toNat * 256 + (t.block.tx.getD 5 0#8).toNat = s.block.value.toNat % 2 ^ 16

/-- 41_encoder.md R128, whole: a successful BUILD empties RX, a failing BUILD_READ leaves it; neither changes RESULT,
EXC_CODE or CRC_ACC. -/
def Obligations.BuildEmptiesRx : Prop :=
  ∀ i ∈ [Instr.buildRead, .buildWrite], ∀ s : State,
    ∃ t, exec i s = .next t ∧ (t.block.status = 0x00#8 → t.block.rx = []) ∧
      (t.block.status ≠ 0x00#8 → t.block.rx = s.block.rx) ∧
      t.block.result = s.block.result ∧ t.block.excCode = s.block.excCode ∧ t.block.crcAcc = s.block.crcAcc

/-! ### The response validator -/

/-- 42_decoder.md R150, whole: RX_CLEAR's effect and frame (RESULT and EXC_CODE with it), and its word. -/
def Obligations.RxClearRule : Prop :=
  encode .rxClear = 0x00000030#32 ∧
  (∀ s : State, exec .rxClear s = .next { s with block := { s.block with rx := [], status := 0x00#8 } }) ∧
  ∀ i ∈ [Instr.buildRead, .buildWrite], ∀ s : State,
    ∃ t, exec i s = .next t ∧ (t.block.status = 0x00#8 → t.block.rx = [])

/-- 42_decoder.md R151, whole: RX_PUSH's two exits, each with its frame, its word, and that a parse of a full RX never
reports OK. -/
def Obligations.RxPushRule : Prop :=
  (∀ (s : State) (b : Byte),
    (s.block.rx.length ≠ 256 →
      exec (.rxPush b) s = .next { s with block := { s.block with rx := s.block.rx ++ [b], status := 0x00#8 } }) ∧
    (s.block.rx.length = 256 →
      exec (.rxPush b) s = .next { s with block := { s.block with status := 0x07#8 } })) ∧
  (∀ b : Byte, encode (.rxPush b) = ((b.zeroExtend 32) <<< 8) ||| 0x31#32) ∧
  ∀ i ∈ [Instr.parseRead, .parseWrite], ∀ s : State, s.block.rx.length = 256 →
    ∃ t, exec i s = .next t ∧ t.block.status ≠ 0x00#8

open Classical in
/-- 42_decoder.md R152 to R162, R164 to R166, 60_exceptions.md R204: PARSE_READ's whole effect and frame, the stages V, S,
(a) to (f) in order, for every content of RX and both values of the parameter. -/
def Obligations.ParseReadStages : Prop :=
  encode .parseRead = 0x00000040#32 ∧
  ∀ s : State,
    let b := s.block
    let n := b.rx.length
    let e := 5 + 2 * b.qty.toNat
    let code : Byte :=
      if ¬ (1 ≤ b.qty.toNat ∧ b.qty.toNat ≤ 125) then 0x01#8
      else if n < e ∧ ¬ Xs s then 0x02#8
      else if ¬ CrcValid b.rx then 0x03#8
      else if n ≠ e ∧ ¬ Xs s then 0x06#8
      else if b.rx.getD 0 0#8 ≠ b.slave then 0x04#8
      else if (b.rx.getD 1 0#8).getLsbD 7 then 0x05#8
      else if b.rx.getD 1 0#8 ≠ 0x03#8 then 0x06#8
      else if (b.rx.getD 2 0#8).toNat ≠ 2 * b.qty.toNat then 0x06#8
      else 0x00#8
    exec .parseRead s = .next { s with block := { b with
      status := code
      excCode := if code = 0x05#8 then b.rx.getD 2 0#8 else 0x00#8
      result := if code = 0x00#8 then
          List.ofFn fun i : Fin b.qty.toNat =>
            ((b.rx.getD (3 + 2 * i) 0#8).zeroExtend 16 <<< 8) ||| (b.rx.getD (4 + 2 * i) 0#8).zeroExtend 16
        else [] } }

open Classical in
/-- 42_decoder.md R152 to R159, R163 to R167, 60_exceptions.md R204: PARSE_WRITE's whole effect and frame, the stages S,
(a) to (e) in order against the fixed 8-byte echo. -/
def Obligations.ParseWriteStages : Prop :=
  encode .parseWrite = 0x00000041#32 ∧
  ∀ s : State,
    let b := s.block
    let n := b.rx.length
    let code : Byte :=
      if n < 8 ∧ ¬ Xs s then 0x02#8
      else if ¬ CrcValid b.rx then 0x03#8
      else if n ≠ 8 ∧ ¬ Xs s then 0x06#8
      else if b.rx.getD 0 0#8 ≠ b.slave then 0x04#8
      else if (b.rx.getD 1 0#8).getLsbD 7 then 0x05#8
      else if b.rx.getD 1 0#8 ≠ 0x06#8 then 0x06#8
      else 0x00#8
    exec .parseWrite s = .next { s with block := { b with
      status := code
      excCode := if code = 0x05#8 then b.rx.getD 2 0#8 else 0x00#8
      result := [] } }

/-- 30_encoding.md R88, 42_decoder.md R161, R162: PARSE_READ reports OK exactly on the normal response of the selected
slave carrying QTY register values, and RESULT is then exactly those values, for every sequence of values. -/
def Obligations.ParseReadAcceptsExactly : Prop :=
  ∀ s : State, ∃ t, exec .parseRead s = .next t ∧
    (t.block.status = 0x00#8 ↔
      1 ≤ s.block.qty.toNat ∧ s.block.qty.toNat ≤ 125 ∧
        ∃ ws : List Half, ws.length = s.block.qty.toNat ∧ s.block.rx = readResponse s.block.slave ws) ∧
    ∀ ws : List Half, 1 ≤ ws.length → ws.length ≤ 125 → ws.length = s.block.qty.toNat →
      s.block.rx = readResponse s.block.slave ws → t.block.status = 0x00#8 ∧ t.block.result = ws

/-- 30_encoding.md R89, 42_decoder.md R163, R167: PARSE_WRITE reports OK exactly on an 8-byte echo of the selected slave
with function 0x06 and a valid CRC, whatever the four register and value bytes are. -/
def Obligations.ParseWriteAcceptsExactly : Prop :=
  ∀ s : State, ∃ t, exec .parseWrite s = .next t ∧
    (t.block.status = 0x00#8 ↔
      ∃ rh rl vh vl : Byte, s.block.rx = framed [s.block.slave, 0x06#8, rh, rl, vh, vl])

/-- 42_decoder.md R165, whole: EXC_CODE after a parse is RX[2] on the ERR_PROTOCOL_EXCEPTION exit and 0 on every other, so
a code that is not 0 implies STATUS 0x05; no other command writes it. -/
def Obligations.ExceptionCodeRule : Prop :=
  (∀ i ∈ [Instr.parseRead, .parseWrite], ∀ s : State, ∃ t, exec i s = .next t ∧
    t.block.excCode = (if t.block.status = 0x05#8 then s.block.rx.getD 2 0#8 else 0x00#8) ∧
    (t.block.excCode ≠ 0x00#8 → t.block.status = 0x05#8)) ∧
  ∀ (i : Instr) (s : State), i ≠ .parseRead → i ≠ .parseWrite →
    ∃ t, exec i s = .next t ∧ t.block.excCode = s.block.excCode

/-- 42_decoder.md R166, whole: a parse leaves RESULT empty unless it is a PARSE_READ that finishes OK, which leaves
exactly QTY words, readable through the RESULT window; no other command fills it. -/
def Obligations.ResultRule : Prop :=
  (∀ s : State, ∃ t, exec .parseRead s = .next t ∧
    (t.block.status ≠ 0x00#8 → t.block.result = []) ∧
    (t.block.status = 0x00#8 → t.block.result.length = s.block.qty.toNat ∧
      ∀ (k : Nat) (hk : k < t.block.result.length),
        hostRead t.params t.block (BitVec.ofNat 12 (0xC00 + 4 * k)) = (t.block.result[k]).zeroExtend 32)) ∧
  (∀ s : State, ∃ t, exec .parseWrite s = .next t ∧ t.block.result = []) ∧
  ∀ (i : Instr) (s : State), i ≠ .parseRead → i ≠ .parseWrite →
    ∃ t, exec i s = .next t ∧ t.block.result = s.block.result

/-- 42_decoder.md R162, R163, R167, R168: what a parse reports depends on RX, the live SLAVE, the parameter and, for
PARSE_READ, the live QTY, and on nothing else (not ADDR, VALUE, TX, CRC_ACC or anything an earlier command left). -/
def Obligations.ParseReadsOnlyItsOperands : Prop :=
  ∀ s s' : State, s.params = s'.params → s.block.rx = s'.block.rx → s.block.slave = s'.block.slave →
    (∃ t t', exec .parseWrite s = .next t ∧ exec .parseWrite s' = .next t' ∧
      t.block.status = t'.block.status ∧ t.block.excCode = t'.block.excCode ∧ t.block.result = t'.block.result) ∧
    (s.block.qty = s'.block.qty →
      ∃ t t', exec .parseRead s = .next t ∧ exec .parseRead s' = .next t' ∧
        t.block.status = t'.block.status ∧ t.block.excCode = t'.block.excCode ∧ t.block.result = t'.block.result)

/-- 42_decoder.md R164, whole: a 5-byte frame under either value of EXC_SHORT_FRAME, in both parse commands; stage (a)
before stage (d); and that an exception is otherwise reported only from a frame of the expected length. -/
def Obligations.ShortExceptionFrame : Prop :=
  (∀ (s : State) (i : Instr) (a f c l h : Byte), s.block.rx = [a, f, c, l, h] →
    i = .parseWrite ∨ (i = .parseRead ∧ 1 ≤ s.block.qty.toNat ∧ s.block.qty.toNat ≤ 125) →
      ∃ t, exec i s = .next t ∧
        (s.params.excShortFrame = false ∨ f.getLsbD 7 = false → t.block.status = 0x02#8) ∧
        (s.params.excShortFrame = true → f.getLsbD 7 = true →
          t.block.status = (if crc16 [a, f, c] ≠ (h.zeroExtend 16 <<< 8) ||| l.zeroExtend 16 then 0x03#8
            else if a ≠ s.block.slave then 0x04#8 else 0x05#8) ∧
          (t.block.status = 0x05#8 → t.block.excCode = c))) ∧
  ∀ (s : State) (i : Instr) (e : Nat),
    (i = .parseWrite ∧ e = 8) ∨
      (i = .parseRead ∧ e = 5 + 2 * s.block.qty.toNat ∧ 1 ≤ s.block.qty.toNat ∧ s.block.qty.toNat ≤ 125) →
      ∃ t, exec i s = .next t ∧
        (t.block.status = 0x05#8 ↔
          (s.block.rx.length = e ∨ (s.params.excShortFrame = true ∧ s.block.rx.length = 5)) ∧
            CrcValid s.block.rx ∧ s.block.rx.getD 0 0#8 = s.block.slave ∧
            (s.block.rx.getD 1 0#8).getLsbD 7 = true) ∧
        (t.block.status = 0x05#8 → t.block.excCode = s.block.rx.getD 2 0#8)

/-- 42_decoder.md R162 (corner case): a response of the expected length with a valid CRC followed by one more byte is
ERR_MALFORMED when that byte is 0x00 and ERR_CRC otherwise. -/
def Obligations.OneExtraByte : Prop :=
  ∀ (s : State) (x : Byte), 1 ≤ s.block.qty.toNat → s.block.qty.toNat ≤ 125 →
    s.block.rx.length = 5 + 2 * s.block.qty.toNat → CrcValid s.block.rx →
      ∃ t, exec .parseRead { s with block := { s.block with rx := s.block.rx ++ [x] } } = .next t ∧
        t.block.status = if x = 0x00#8 then 0x06#8 else 0x03#8

/-- 42_decoder.md R155, 70_reset_and_hazards.md R236: old bytes left in RX ahead of a response of the expected length make
the parse report ERR_CRC or ERR_MALFORMED, never OK. -/
def Obligations.StaleBytesNeverAccepted : Prop :=
  ∀ (s : State) (old resp : List Byte), s.block.rx = old ++ resp → old ≠ [] →
    (1 ≤ s.block.qty.toNat → s.block.qty.toNat ≤ 125 → resp.length = 5 + 2 * s.block.qty.toNat →
      ∃ t, exec .parseRead s = .next t ∧ (t.block.status = 0x03#8 ∨ t.block.status = 0x06#8)) ∧
    (resp.length = 8 →
      ∃ t, exec .parseWrite s = .next t ∧ (t.block.status = 0x03#8 ∨ t.block.status = 0x06#8))

/-- 42_decoder.md R162 (other state): a parse does not consume RX, so running it again changes nothing more. -/
def Obligations.ParseAgainSameResult : Prop :=
  ∀ i ∈ [Instr.parseRead, .parseWrite], ∀ s : State, ∃ t, exec i s = .next t ∧ t.block.rx = s.block.rx ∧ exec i t = .next t

/-! ### Every command -/

/-- 44_control.md R190: NOP writes STATUS 0 and nothing else, so RESULT and EXC_CODE stay; its word; and no other command
does so in every state (how the rule's "only way" is read beside R120's corner case, log entry 14). -/
def Obligations.NopRule : Prop :=
  encode .nop = 0x00000000#32 ∧
  (∀ s : State, exec .nop s = .next { s with block := { s.block with status := 0x00#8 } }) ∧
  ∀ i : Instr, i ≠ .nop →
    ∃ s t, exec i s = .next t ∧ t.block ≠ { s.block with status := 0x00#8 }

/-- 44_control.md R193, 60_exceptions.md R201: every command reports one of the codes its rule names. -/
def Obligations.StatusCodesOfCommands : Prop :=
  ∀ (i : Instr) (s : State), ∃ t, exec i s = .next t ∧ t.block.status ∈ statusCodes i

/-- 44_control.md R195, whole: what a failing command leaves changed, and nothing beyond it. -/
def Obligations.FailureLeavesNoPartialEffect : Prop :=
  ∀ (i : Instr) (s : State), ∃ t, exec i s = .next t ∧
    (t.block.status ≠ 0x00#8 →
      ((∃ b, i = .txPush b) ∨ i = .txAppendCrc ∨ (∃ b, i = .rxPush b) →
        t = { s with block := { s.block with status := t.block.status } }) ∧
      (i = .buildRead → t = { s with block := { s.block with status := t.block.status, tx := [] } }) ∧
      (i = .parseRead ∨ i = .parseWrite →
        t = { s with block := { s.block with
          status := t.block.status, result := [], excCode := t.block.excCode } }))

/-- 10_state.md R32 (the Written by column), with R28 and R30: no command writes an operand register, and each other
register is written only by the commands the table names. -/
def Obligations.WrittenOnlyBy : Prop :=
  ∀ (i : Instr) (s : State), ∃ t, exec i s = .next t ∧
    t.params = s.params ∧ t.port = s.port ∧ t.replies = s.replies ∧
    t.block.slave = s.block.slave ∧ t.block.addr = s.block.addr ∧ t.block.qty = s.block.qty ∧
    t.block.value = s.block.value ∧
    (i ≠ .crcInit → (∀ b, i ≠ .crcByte b) → t.block.crcAcc = s.block.crcAcc) ∧
    (i ∉ [Instr.txClear, .txAppendCrc, .buildRead, .buildWrite] → (∀ b, i ≠ .txPush b) → t.block.tx = s.block.tx) ∧
    (i ∉ [Instr.rxClear, .buildRead, .buildWrite] → (∀ b, i ≠ .rxPush b) → t.block.rx = s.block.rx) ∧
    (i ∉ [Instr.parseRead, .parseWrite] → t.block.result = s.block.result ∧ t.block.excCode = s.block.excCode)

/-! ### Exchanges -/

/-- 30_encoding.md R89: the request BUILD_WRITE builds, echoed by the device, is accepted by PARSE_WRITE. -/
def Obligations.WriteEchoAccepted : Prop :=
  ∀ s : State, ∃ t u, exec .buildWrite s = .next t ∧
    exec .parseWrite { t with block := { t.block with rx := t.block.tx } } = .next u ∧ u.block.status = 0x00#8

/-- 30_encoding.md R92 with 40_crc.md R104: CRC16 computes crc16 of its bytes in CRC_ACC, TXFRAME and RXFRAME load their
bytes, each changing nothing else but STATUS (log entry 13 says how statements become transactions). -/
def Obligations.FramePseudoInstructions : Prop :=
  ∀ (s : State) (bytes : List Byte) (rest : List HostEvent),
    (s.port = asmEvents (expand (.crc16 bytes)) ++ rest →
      Reaches (bytes.length + 1) s
        { s with port := rest, block := { s.block with crcAcc := crc16 bytes, status := 0x00#8 } }) ∧
    (bytes.length ≤ 256 → s.port = asmEvents (expand (.txFrame bytes)) ++ rest →
      Reaches (bytes.length + 1) s
        { s with port := rest, block := { s.block with tx := bytes, status := 0x00#8 } }) ∧
    (bytes.length ≤ 256 → s.port = asmEvents (expand (.rxFrame bytes)) ++ rest →
      Reaches (bytes.length + 1) s
        { s with port := rest, block := { s.block with rx := bytes, status := 0x00#8 } })

/-- 30_encoding.md R92 with 41_encoder.md R124, R127: READREQ and WRITEREQ set the operand registers to the low bits of
their arguments and build the request frame of them (log entry 13). -/
def Obligations.RequestPseudoInstructions : Prop :=
  ∀ (s : State) (sl a q : Word) (rest : List HostEvent),
    (s.port = asmEvents (expand (.readReq sl a q)) ++ rest →
      1 ≤ q.toNat % 2 ^ 16 → q.toNat % 2 ^ 16 ≤ 125 →
      Reaches 4 s { s with port := rest, block := { s.block with
        slave := sl.extractLsb' 0 8, addr := a.extractLsb' 0 16, qty := q.extractLsb' 0 16
        tx := framed [sl.extractLsb' 0 8, 0x03#8, a.extractLsb' 8 8, a.extractLsb' 0 8,
          q.extractLsb' 8 8, q.extractLsb' 0 8]
        rx := [], status := 0x00#8 } }) ∧
    (s.port = asmEvents (expand (.writeReq sl a q)) ++ rest →
      Reaches 4 s { s with port := rest, block := { s.block with
        slave := sl.extractLsb' 0 8, addr := a.extractLsb' 0 16, value := q
        tx := framed [sl.extractLsb' 0 8, 0x06#8, a.extractLsb' 8 8, a.extractLsb' 0 8,
          q.extractLsb' 8 8, q.extractLsb' 0 8]
        rx := [], status := 0x00#8 } })

/-- 70_reset_and_hazards.md R234 (its steps on the block): from every state, a read exchange in which the device answers
the request with any register values delivers exactly those values, whatever the block held before (the port that presents
the transactions is the model's, log entry 3; how statements become transactions, log entry 13). -/
def Obligations.ReadExchangeDelivers : Prop :=
  ∀ (s : State) (slave : Byte) (addr : Half) (ws : List Half) (rest : List HostEvent),
    1 ≤ ws.length → ws.length ≤ 125 →
    s.port = asmEvents (expand (.readReq (slave.zeroExtend 32) (addr.zeroExtend 32) (BitVec.ofNat 32 ws.length)) ++
      (readResponse slave ws).map (fun b => .command (.rxPush b)) ++ [.command .parseRead]) ++ rest →
      ∃ t, Reaches (4 + (5 + 2 * ws.length) + 1) s t ∧ t.port = rest ∧ t.replies = s.replies ∧
        t.block = { s.block with
          slave := slave, addr := addr, qty := BitVec.ofNat 16 ws.length
          tx := framed [slave, 0x03#8, addr.extractLsb' 8 8, addr.extractLsb' 0 8, 0x00#8, BitVec.ofNat 8 ws.length]
          rx := readResponse slave ws, result := ws, status := 0x00#8, excCode := 0x00#8 }
end

