-- ==== Sys2Proof/Laws/Operands.lean ====
section
/-! SUPPORT. The small lemmas of bytes, halves, the CRC functions and the frames built with them. -/

namespace Sys2Proof.Machine

@[simp] theorem hi_half (h l : Byte) : hi (half h l) = h := by
  unfold hi half
  ext i hi
  have h1 : l.getLsbD (8 + i) = false := BitVec.getLsbD_of_ge _ _ (by omega)
  simp only [BitVec.getElem_extractLsb', BitVec.getLsbD_or, BitVec.getLsbD_shiftLeft, BitVec.getLsbD_setWidth, h1]
  have h2 : 8 + i < 16 := by omega
  have h3 : i < 16 := by omega
  simp [hi, h2, h3]

@[simp] theorem lo_half (h l : Byte) : lo (half h l) = l := by
  unfold lo half
  ext i hi
  have h2 : i < 16 := by omega
  simp [hi, h2]

@[simp] theorem half_hi_lo (v : Half) : half (hi v) (lo v) = v := by
  unfold half hi lo
  ext i hi
  by_cases h : i < 8
  · simp [h, BitVec.getLsbD_eq_getElem hi]
  · have e : 8 + (i - 8) = i := by omega
    have h1 : i - 8 < 8 := by omega
    simp [h, e, h1, BitVec.getLsbD_eq_getElem hi]

@[simp] theorem crc16_nil : crc16 [] = 0xFFFF#16 := rfl

theorem crc16_snoc (s : List Byte) (b : Byte) : crc16 (s ++ [b]) = crcStep (crc16 s) b := by
  simp [crc16]

@[simp] theorem crcBytes_length (c : Half) : (crcBytes c).length = 2 := rfl

@[simp] theorem appendCrc_length (s : List Byte) : (appendCrc s).length = s.length + 2 := by
  simp [appendCrc]

@[simp] theorem request_length (s fc : Byte) (f1 f2 : Half) : (request s fc f1 f2).length = 8 := by
  simp [request]

@[simp] theorem decodeWords_length (rx : List Byte) (q : Nat) : (decodeWords rx q).length = q := by
  simp [decodeWords]

/-- A valid quantity lies in 1 to 125 (41_encoder.md R125). -/
theorem qtyOk_iff (q : Half) : qtyOk q = true ↔ 1 ≤ q.toNat ∧ q.toNat ≤ 125 := by
  simp only [qtyOk, Bool.and_eq_true, decide_eq_true_eq]
  exact Iff.rfl

/-- An index inside the sequence: `byteAt` is the element (00_scope.md R8). -/
theorem byteAt_of_lt {s : List Byte} {i : Nat} (h : i < s.length) : byteAt s i = s[i] := by
  simp [byteAt, h]

end Sys2Proof.Machine
end

