-- ==== Sys2Proof/Laws/Flags.lean ====
section
/-! SUPPORT. What the status codes and the shared validation stages can answer. -/

namespace Sys2Proof.Machine

theorem code_le (c : StatusCode) : c.code.toNat ≤ 8 := by cases c <;> decide

/-- Different codes have different numbers (60_exceptions.md R201). -/
theorem code_inj {c d : StatusCode} (h : c.code = d.code) : c = d := by
  cases c <;> cases d <;> first | rfl | exact absurd h (by decide)

/-- A short exception frame has 5 bytes (42_decoder.md R164). -/
theorem length_of_shortExc {p : Params} {rx : List Byte} (h : shortExc p rx = true) : rx.length = 5 := by
  simp only [shortExc, Bool.and_eq_true, beq_iff_eq] at h
  exact h.1.1

/-- When stage S fails (42_decoder.md R153). -/
theorem shortRead_iff {p : Params} {e : Nat} {rx : List Byte} :
    shortRead p e rx = true ↔ rx.length < e ∧ shortExc p rx = false := by
  simp [shortRead]

/-- When stage (b) fails (42_decoder.md R155). -/
theorem lengthBad_iff {p : Params} {e : Nat} {rx : List Byte} :
    lengthBad p e rx = true ↔ rx.length ≠ e ∧ shortExc p rx = false := by
  simp [lengthBad]

/-- A response past stage S has at least 5 bytes when its expected length has (42_decoder.md R153): every index that
stages (a) to (e) read lies in it, so no rule reads the default of `byteAt` (log entry 7). -/
theorem length_of_not_shortRead {p : Params} {e : Nat} {rx : List Byte} (he : 5 ≤ e)
    (h : shortRead p e rx = false) : 5 ≤ rx.length := by
  simp only [shortRead, Bool.and_eq_false_iff, decide_eq_false_iff_not, Bool.not_eq_false'] at h
  rcases h with h | h
  · omega
  · exact (length_of_shortExc h).ge

/-- The shared stages answer OK exactly when each of them passes (42_decoder.md R152); the length is then the expected
one, for a short exception frame fails stage (d). -/
theorem frameVerdict_ok_iff {p : Params} {e : Nat} {fc slave : Byte} {rx : List Byte} :
    frameVerdict p e fc slave rx = .ok ↔
      shortRead p e rx = false ∧ crcBad rx = false ∧ lengthBad p e rx = false ∧ byteAt rx 0 = slave ∧
        excBit rx = false ∧ byteAt rx 1 = fc := by
  unfold frameVerdict
  split <;> rename_i h1 <;> simp_all
  split <;> rename_i h2 <;> simp_all
  split <;> rename_i h3 <;> simp_all
  split <;> rename_i h4 <;> simp_all
  split <;> rename_i h5 <;> simp_all

/-- The codes the shared stages can answer. -/
theorem frameVerdict_cases (p : Params) (e : Nat) (fc slave : Byte) (rx : List Byte) :
    frameVerdict p e fc slave rx ∈
      [.ok, .shortRead, .crc, .slaveMismatch, .protocolException, .malformed] := by
  unfold frameVerdict
  split
  · decide
  split
  · decide
  split
  · decide
  split
  · decide
  split
  · decide
  split <;> decide

/-- PARSE_READ answers OK exactly when every stage passes (42_decoder.md R162). -/
theorem readVerdict_ok_iff {p : Params} {b : Block} :
    readVerdict p b = .ok ↔
      qtyOk b.qty = true ∧ frameVerdict p (readRespLen b.qty) Config.fcRead b.slave b.rx = .ok ∧
        (byteAt b.rx 2).toNat = 2 * b.qty.toNat := by
  unfold readVerdict
  split
  · rename_i hq
    unfold byteCountVerdict
    split
    · rename_i h
      simp [hq, h]
    · rename_i h
      exact ⟨fun hc => absurd hc h, fun hc => absurd hc.2.1 h⟩
  · rename_i hq
    simp [hq]

/-- The codes PARSE_READ can answer (42_decoder.md R162). -/
theorem readVerdict_cases (p : Params) (b : Block) :
    readVerdict p b ∈
      [.ok, .validation, .shortRead, .crc, .slaveMismatch, .protocolException, .malformed] := by
  unfold readVerdict
  split
  · have := frameVerdict_cases p (readRespLen b.qty) Config.fcRead b.slave b.rx
    unfold byteCountVerdict
    split
    · split <;> decide
    · simp_all
  · decide

/-- The codes PARSE_WRITE can answer (42_decoder.md R163). -/
theorem writeVerdict_cases (p : Params) (b : Block) :
    writeVerdict p b ∈ [.ok, .shortRead, .crc, .slaveMismatch, .protocolException, .malformed] :=
  frameVerdict_cases _ _ _ _ _

end Sys2Proof.Machine
end

