-- ==== Sys2Proof/Laws/Crc.lean ====
section
/-!
SUPPORT. The algebra of the CRC (40_crc.md R100 to R102): the shift step is linear and loses nothing, so a byte step is
injective in the accumulator; a frame passes stage (a) exactly when it is a payload followed by the payload's CRC.
-/

namespace Sys2Proof.Machine

/-- A shift step sends exclusive-ors to exclusive-ors. -/
theorem crcShift_xor (a b : Half) : crcShift (a ^^^ b) = crcShift a ^^^ crcShift b := by
  unfold crcShift
  simp only [BitVec.getLsbD_xor, BitVec.ushiftRight_xor_distrib]
  cases a.getLsbD 0 <;> cases b.getLsbD 0 <;> simp
  · exact BitVec.xor_assoc _ _ _
  · rw [BitVec.xor_assoc, BitVec.xor_comm (b >>> 1), ← BitVec.xor_assoc]
  · rw [BitVec.xor_comm (b >>> 1), ← BitVec.xor_assoc, BitVec.xor_assoc (a >>> 1), BitVec.xor_self, BitVec.xor_zero]

/-- Bit 15 after a shift step is the bit shifted out. -/
theorem crcShift_msb (a : Half) : (crcShift a).getLsbD 15 = a.getLsbD 0 := by
  unfold crcShift
  split
  · rename_i h
    rw [h, BitVec.getLsbD_xor, BitVec.getLsbD_ushiftRight]
    rw [BitVec.getLsbD_of_ge a 16 (by decide)]
    decide
  · rename_i h
    rw [BitVec.getLsbD_ushiftRight, BitVec.getLsbD_of_ge a (1 + 15) (by decide)]
    simpa using h

/-- A shift step loses nothing. -/
theorem crcShift_injective : Function.Injective crcShift := by
  intro a b h
  have h0 : a.getLsbD 0 = b.getLsbD 0 := by rw [← crcShift_msb, ← crcShift_msb, h]
  have hs : a >>> 1 = b >>> 1 := by
    unfold crcShift at h
    rw [h0] at h
    split at h
    · exact (BitVec.xor_left_inj _).1 h
    · exact h
  apply BitVec.eq_of_getLsbD_eq
  intro i hi
  cases i with
  | zero => exact h0
  | succ i =>
    have := congrArg (·.getLsbD i) hs
    simpa [BitVec.getLsbD_ushiftRight, Nat.add_comm] using this

theorem crcShifts_injective (n : Nat) : Function.Injective (crcShifts n) := by
  induction n with
  | zero => exact fun _ _ h => h
  | succ n ih => exact fun a b h => crcShift_injective (ih h)

theorem crcShifts_xor (n : Nat) (a b : Half) : crcShifts n (a ^^^ b) = crcShifts n a ^^^ crcShifts n b := by
  induction n generalizing a b with
  | zero => rfl
  | succ n ih => simp only [crcShifts, crcShift_xor, ih]

/-- The frames that pass stage (a) (42_decoder.md R154) are those that `appendCrc` makes. -/
theorem crcBad_eq_false_iff {rx : List Byte} (h : 2 ≤ rx.length) :
    crcBad rx = false ↔ ∃ p, rx = appendCrc p := by
  obtain ⟨p, l, m, rfl⟩ : ∃ p l m, rx = p ++ [l, m] := by
    refine ⟨rx.take (rx.length - 2), rx[rx.length - 2], rx[rx.length - 1], ?_⟩
    conv_lhs => rw [← List.take_append_drop (rx.length - 2) rx]
    congr 1
    apply List.ext_getElem
    · simp; omega
    · intro i h1 h2
      have : i < 2 := by simpa using h2
      match i with
      | 0 => simp
      | 1 => simp [show rx.length - 2 + 1 = rx.length - 1 by omega]
  have hb : frameBody (p ++ [l, m]) = p := by simp [frameBody]
  have ht : trailingCrc (p ++ [l, m]) = half m l := by simp [trailingCrc, byteAt]
  rw [crcBad, hb, ht, bne_eq_false_iff_eq]
  constructor
  · intro e
    exact ⟨p, by simp [appendCrc, crcBytes, e]⟩
  · rintro ⟨q, e⟩
    obtain ⟨rfl, e2⟩ := List.append_inj' e rfl
    simp only [crcBytes, List.cons.injEq, and_true] at e2
    rw [e2.1, e2.2, half_hi_lo]

end Sys2Proof.Machine
end

