-- ==== Sys2Proof/Laws/Decode.lean ====
section
/-! SUPPORT. The fields of an encoded command word (30_encoding.md R80, R91). -/

namespace Sys2Proof

@[simp] theorem fieldOp_encodeFields (op b : Byte) : fieldOp (encodeFields op b) = op := by
  unfold fieldOp encodeFields
  ext i hi
  have h8 : i < 32 := by omega
  simp [hi, h8]

@[simp] theorem fieldImm8_encodeFields (op b : Byte) : fieldImm8 (encodeFields op b) = b := by
  unfold fieldImm8 encodeFields
  ext i hi
  have h8 : 8 + i < 32 := by omega
  simp [hi, h8]

@[simp] theorem fieldRsv_encodeFields (op b : Byte) : fieldRsv (encodeFields op b) = 0x0000#16 := by
  unfold fieldRsv encodeFields
  ext i hi
  simp only [BitVec.getElem_extractLsb', BitVec.getLsbD_or, BitVec.getLsbD_shiftLeft, BitVec.getLsbD_setWidth]
  have h1 : b.getLsbD (16 + i - 8) = false := BitVec.getLsbD_of_ge _ _ (by omega)
  have h2 : op.getLsbD (16 + i) = false := BitVec.getLsbD_of_ge _ _ (by omega)
  simp [h1, h2]

/-- A word is its fields. -/
theorem encodeFields_fields (w : Word) (h : fieldRsv w = 0x0000#16) :
    encodeFields (fieldOp w) (fieldImm8 w) = w := by
  have hr : ∀ i, i < 16 → w.getLsbD (16 + i) = false := by
    intro i hi
    have := congrArg (·.getLsbD i) h
    simpa [fieldRsv, hi] using this
  unfold encodeFields fieldOp fieldImm8
  ext i hi
  by_cases h8 : i < 8
  · simp [h8, BitVec.getLsbD_eq_getElem hi]
  · by_cases h16 : i < 16
    · have : i - 8 < 8 := by omega
      have e : 8 + (i - 8) = i := by omega
      simp [h8, this, e, hi]
    · have : ¬ i - 8 < 8 := by omega
      have e := hr (i - 16) (by omega)
      rw [show 16 + (i - 16) = i by omega] at e
      simp [h8, this]
      simpa [BitVec.getLsbD_eq_getElem hi] using e.symm

end Sys2Proof
end

