-- ==== Sys2Proof/Laws/State.lean ====
section
/-!
SUPPORT. One lemma per field of each named update of the state, true by rfl (10_state.md R32), so that no proof unfolds
a record update.
-/

namespace Sys2Proof.Machine

section State_withBlock
variable (s : State) (b : Block)

@[simp] theorem State_withBlock_params : (s.withBlock b).params = s.params := rfl
@[simp] theorem State_withBlock_block : (s.withBlock b).block = b := rfl
@[simp] theorem State_withBlock_port : (s.withBlock b).port = s.port := rfl
@[simp] theorem State_withBlock_replies : (s.withBlock b).replies = s.replies := rfl

end State_withBlock

section State_withPort
variable (s : State) (rest : List HostEvent)

@[simp] theorem State_withPort_params : (s.withPort rest).params = s.params := rfl
@[simp] theorem State_withPort_block : (s.withPort rest).block = s.block := rfl
@[simp] theorem State_withPort_port : (s.withPort rest).port = rest := rfl
@[simp] theorem State_withPort_replies : (s.withPort rest).replies = s.replies := rfl

end State_withPort

section State_reply
variable (s : State) (v : Word)

@[simp] theorem State_reply_params : (s.reply v).params = s.params := rfl
@[simp] theorem State_reply_block : (s.reply v).block = s.block := rfl
@[simp] theorem State_reply_port : (s.reply v).port = s.port := rfl
@[simp] theorem State_reply_replies : (s.reply v).replies = s.replies ++ [v] := rfl

end State_reply

section finishOk
variable (b : Block)

@[simp] theorem finishOk_slave : (finishOk b).slave = b.slave := rfl
@[simp] theorem finishOk_addr : (finishOk b).addr = b.addr := rfl
@[simp] theorem finishOk_qty : (finishOk b).qty = b.qty := rfl
@[simp] theorem finishOk_value : (finishOk b).value = b.value := rfl
@[simp] theorem finishOk_crcAcc : (finishOk b).crcAcc = b.crcAcc := rfl
@[simp] theorem finishOk_status : (finishOk b).status = 0x00#8 := rfl
@[simp] theorem finishOk_excCode : (finishOk b).excCode = b.excCode := rfl
@[simp] theorem finishOk_tx : (finishOk b).tx = b.tx := rfl
@[simp] theorem finishOk_rx : (finishOk b).rx = b.rx := rfl
@[simp] theorem finishOk_result : (finishOk b).result = b.result := rfl

end finishOk

section raiseErr
variable (c : StatusCode) (b : Block)

@[simp] theorem raiseErr_slave : (raiseErr c b).slave = b.slave := rfl
@[simp] theorem raiseErr_addr : (raiseErr c b).addr = b.addr := rfl
@[simp] theorem raiseErr_qty : (raiseErr c b).qty = b.qty := rfl
@[simp] theorem raiseErr_value : (raiseErr c b).value = b.value := rfl
@[simp] theorem raiseErr_crcAcc : (raiseErr c b).crcAcc = b.crcAcc := rfl
@[simp] theorem raiseErr_status : (raiseErr c b).status = c.code := rfl
@[simp] theorem raiseErr_excCode : (raiseErr c b).excCode = b.excCode := rfl
@[simp] theorem raiseErr_tx : (raiseErr c b).tx = b.tx := rfl
@[simp] theorem raiseErr_rx : (raiseErr c b).rx = b.rx := rfl
@[simp] theorem raiseErr_result : (raiseErr c b).result = b.result := rfl

end raiseErr

section finishParse
variable (v : StatusCode) (words : List Half) (b : Block)

@[simp] theorem finishParse_slave : (finishParse v words b).slave = b.slave := rfl
@[simp] theorem finishParse_addr : (finishParse v words b).addr = b.addr := rfl
@[simp] theorem finishParse_qty : (finishParse v words b).qty = b.qty := rfl
@[simp] theorem finishParse_value : (finishParse v words b).value = b.value := rfl
@[simp] theorem finishParse_crcAcc : (finishParse v words b).crcAcc = b.crcAcc := rfl
@[simp] theorem finishParse_status : (finishParse v words b).status = v.code := rfl
@[simp] theorem finishParse_excCode : (finishParse v words b).excCode = if v = .protocolException then byteAt b.rx 2 else 0x00#8 := rfl
@[simp] theorem finishParse_tx : (finishParse v words b).tx = b.tx := rfl
@[simp] theorem finishParse_rx : (finishParse v words b).rx = b.rx := rfl
@[simp] theorem finishParse_result : (finishParse v words b).result = if v = .ok then words else [] := rfl

end finishParse

/-- Two updates of one field in a row leave the later one. -/
@[simp] theorem State_withBlock_withBlock (s : State) (a b : Block) :
    (s.withBlock a).withBlock b = s.withBlock b := rfl

@[simp] theorem State_withPort_withPort (s : State) (a b : List HostEvent) :
    (s.withPort a).withPort b = s.withPort b := rfl

end Sys2Proof.Machine
end

