-- ==== Sys2Proof/Laws/Ops.lean ====
section
/-! SUPPORT. One lemma for each shared operation: everything it can do. -/

namespace Sys2Proof.Machine

/-- What a push answers: the byte appended below the capacity, nothing at it. -/
theorem pushByte_eq_some {cap : Nat} {buf t : List Byte} {b : Byte} :
    pushByte cap buf b = some t ↔ buf.length ≠ cap ∧ t = buf ++ [b] := by
  unfold pushByte
  split <;> simp_all [eq_comm]

theorem pushByte_eq_none {cap : Nat} {buf : List Byte} {b : Byte} :
    pushByte cap buf b = none ↔ buf.length = cap := by
  unfold pushByte
  split <;> simp_all

/-- A push never makes a buffer longer than its capacity. -/
theorem pushByte_length_le {cap : Nat} {buf t : List Byte} {b : Byte} (hb : buf.length ≤ cap)
    (h : pushByte cap buf b = some t) : t.length ≤ cap := by
  obtain ⟨hne, rfl⟩ := pushByte_eq_some.1 h
  simp only [List.length_append, List.length_singleton]
  omega

theorem pushCrc_eq_some {cap : Nat} {buf t : List Byte} :
    pushCrc cap buf = some t ↔ buf.length ≤ cap - 2 ∧ t = appendCrc buf := by
  unfold pushCrc
  split <;> simp_all [eq_comm]

theorem pushCrc_eq_none {cap : Nat} {buf : List Byte} : pushCrc cap buf = none ↔ cap - 2 < buf.length := by
  unfold pushCrc
  split <;> simp_all

/-- Each named register is selected by its own offset (20_memory.md R53). -/
@[simp] theorem hostTarget_regOffset (r : HostReg) : hostTarget (regOffset r) = .reg r := by
  cases r <;> rfl

/-- An aligned offset at or above 0x400 selects a window or is reserved (20_memory.md R53, R54). -/
theorem alignedTarget_of_ge {n : Nat} (h : 0x400 ≤ n) :
    alignedTarget n =
      if n < 0x800 then .txBuf ((n - 0x400) / 4)
      else if n < 0xC00 then .rxBuf ((n - 0x800) / 4)
      else if n ≤ 0xDF0 then .resultBuf ((n - 0xC00) / 4)
      else .reserved := by
  unfold alignedTarget
  split <;> first | omega | exact if_neg (by omega)

/-- The reserved offsets below the windows (20_memory.md R53). -/
theorem alignedTarget_reserved {n : Nat} (h : 0x030 ≤ n) (h' : n < 0x400) : alignedTarget n = .reserved := by
  unfold alignedTarget
  split <;> first | omega | exact if_pos h'

/-- A named register is selected by no other aligned offset than its own (20_memory.md R53). -/
theorem eq_regOffset_of_alignedTarget {n : Nat} {r : HostReg} (h : alignedTarget n = .reg r) :
    n = (regOffset r).toNat := by
  by_cases hw : 0x400 ≤ n
  · rw [alignedTarget_of_ge hw] at h
    split at h
    · cases h
    split at h
    · cases h
    split at h <;> cases h
  · unfold alignedTarget at h
    split at h <;> first | (cases h; rfl) | skip
    rw [if_pos (by omega)] at h
    cases h

/-- An offset that is a multiple of 4 is aligned. -/
theorem hostTarget_of_mod {off : Offset} (h : off.toNat % 4 = 0) : hostTarget off = alignedTarget off.toNat := by
  unfold hostTarget
  rw [if_pos]
  apply BitVec.eq_of_toNat_eq
  simpa [BitVec.extractLsb'_toNat] using h

/-- Word `i` of each window (20_memory.md R54). -/
theorem hostTarget_windowWord {base i : Nat} (hb : base % 4 = 0) (hi : base + 4 * i < 0x1000) :
    hostTarget (BitVec.ofNat 12 (base + 4 * i)) = alignedTarget (base + 4 * i) := by
  have e : (BitVec.ofNat 12 (base + 4 * i)).toNat = base + 4 * i := by
    rw [BitVec.toNat_ofNat]
    exact Nat.mod_eq_of_lt hi
  rw [hostTarget_of_mod (by omega), e]

theorem hostTarget_txBuf {i : Nat} (h : i ≤ 255) : hostTarget (BitVec.ofNat 12 (0x400 + 4 * i)) = .txBuf i := by
  rw [hostTarget_windowWord (by decide) (by omega), alignedTarget_of_ge (by omega), if_pos (by omega)]
  congr 1
  omega

theorem hostTarget_rxBuf {i : Nat} (h : i ≤ 255) : hostTarget (BitVec.ofNat 12 (0x800 + 4 * i)) = .rxBuf i := by
  rw [hostTarget_windowWord (by decide) (by omega), alignedTarget_of_ge (by omega), if_neg (by omega),
    if_pos (by omega)]
  congr 1
  omega

theorem hostTarget_resultBuf {i : Nat} (h : i ≤ 124) :
    hostTarget (BitVec.ofNat 12 (0xC00 + 4 * i)) = .resultBuf i := by
  rw [hostTarget_windowWord (by decide) (by omega), alignedTarget_of_ge (by omega), if_neg (by omega),
    if_neg (by omega), if_pos (by omega)]
  congr 1
  omega

/-- A register write changes at most the four operand registers. -/
theorem regStore_eq (r : HostReg) (data : Word) (b : Block) :
    ∃ sl ad qt va, regStore r data b = { b with slave := sl, addr := ad, qty := qt, value := va } := by
  cases r <;> exact ⟨_, _, _, _, rfl⟩

/-- What a meaning can answer: a next state that differs in the block alone. -/
theorem exec_eq_withBlock (i : Instr) (s : State) : ∃ b, exec i s = .next (s.withBlock b) := by
  cases i with
  | txPush b => simp only [exec, execTxPush]; split <;> exact ⟨_, rfl⟩
  | rxPush b => simp only [exec, execRxPush]; split <;> exact ⟨_, rfl⟩
  | txAppendCrc => simp only [exec, execTxAppendCrc]; split <;> exact ⟨_, rfl⟩
  | buildRead => simp only [exec, execBuildRead]; split <;> exact ⟨_, rfl⟩
  | nop => exact ⟨_, rfl⟩
  | crcInit => exact ⟨_, rfl⟩
  | crcByte b => exact ⟨_, rfl⟩
  | txClear => exact ⟨_, rfl⟩
  | buildWrite => exact ⟨_, rfl⟩
  | rxClear => exact ⟨_, rfl⟩
  | parseRead => exact ⟨_, rfl⟩
  | parseWrite => exact ⟨_, rfl⟩

/-- What a write access can do: run a command word, store a register, or nothing (20_memory.md R53, R56, R58, R59). -/
theorem hostWriteAccess_cases (off : Offset) (data : Word) (s : State) :
    (hostTarget off = .reg .cmd ∧ hostWriteAccess off data s = runCommandWord data s) ∨
    (∃ r, r ≠ .cmd ∧ hostTarget off = .reg r ∧
      hostWriteAccess off data s = .next (s.withBlock (regStore r data s.block))) ∨
    ((∀ r, hostTarget off ≠ .reg r) ∧ hostWriteAccess off data s = .next s) := by
  unfold hostWriteAccess
  cases h : hostTarget off with
  | reg r => cases r <;> simp
  | misaligned => simp
  | reserved => simp
  | txBuf i => simp
  | rxBuf i => simp
  | resultBuf i => simp

end Sys2Proof.Machine
end

