-- ==== Sys2Proof/Laws/PerInstr.lean ====
section
/-!
SUPPORT. Per instruction: the encoded word satisfies the three checks of 30_encoding.md R82, and its `OP` stands in a row
of R83 whose format is the instruction's.
-/

namespace Sys2Proof.Laws.EncodedRow

/-- What 30_encoding.md R82 and R83 ask of the word of `i`. -/
def Statement (i : Instr) : Prop :=
  (commandFields (encode i)).wf = true ∧ (fieldOp (encode i), i.format) ∈ opcodeFormats

theorem nop : Statement .nop := ⟨by decide, by decide⟩
theorem crcInit : Statement .crcInit := ⟨by decide, by decide⟩
theorem txClear : Statement .txClear := ⟨by decide, by decide⟩
theorem txAppendCrc : Statement .txAppendCrc := ⟨by decide, by decide⟩
theorem buildRead : Statement .buildRead := ⟨by decide, by decide⟩
theorem buildWrite : Statement .buildWrite := ⟨by decide, by decide⟩
theorem rxClear : Statement .rxClear := ⟨by decide, by decide⟩
theorem parseRead : Statement .parseRead := ⟨by decide, by decide⟩
theorem parseWrite : Statement .parseWrite := ⟨by decide, by decide⟩

theorem crcByte (b : Byte) : Statement (.crcByte b) := by
  simp [Statement, encode, commandFields, CommandFields.wf, CommandFields.rsvOk, CommandFields.opOk,
    CommandFields.immOk, opcodeFormats, Instr.format]

theorem txPush (b : Byte) : Statement (.txPush b) := by
  simp [Statement, encode, commandFields, CommandFields.wf, CommandFields.rsvOk, CommandFields.opOk,
    CommandFields.immOk, opcodeFormats, Instr.format]

theorem rxPush (b : Byte) : Statement (.rxPush b) := by
  simp [Statement, encode, commandFields, CommandFields.wf, CommandFields.rsvOk, CommandFields.opOk,
    CommandFields.immOk, opcodeFormats, Instr.format]

end Sys2Proof.Laws.EncodedRow
end

