-- ==== Sys2Proof/Tests/Slice0.lean ====
section
/-!
SUPPORT. The model's own tests. Expected values come from spec/95_test_vectors.md (a vector V<n> or program P<n> named in
the comment) or from the rule named there; words are written out from 30_encoding.md R80 and R83. The second part gives,
for each statement with hypotheses, concrete inputs that meet them.
-/

namespace Sys2Proof.Tests

open Sys2Proof Sys2Proof.Machine Sys2Proof.Statements

/-! ### Helpers -/

/-- The block of the vectors' start: the reset state with `SLAVE = 0x01` (95_test_vectors.md, conventions). -/
def start : Block := { Block.reset with slave := 0x01#8 }

/-- A machine with block `b`, parameter `x` and the transactions `port` presented. -/
def machine (b : Block) (x : Bool := false) (port : List HostEvent := []) : State :=
  { State.resetWith { excShortFrame := x } with block := b, port := port }

/-- The block after an outcome; none where it stops. -/
def after : Host.Outcome State Fault Refusal → Option Block
  | .next t => some t.block
  | .fault _ => none
  | .refused _ => none

/-- The replies after an outcome; none where it stops. -/
def repliesAfter : Host.Outcome State Fault Refusal → Option (List Word)
  | .next t => some t.replies
  | .fault _ => none
  | .refused _ => none

/-- STATUS, EXC_CODE and RESULT after a command. -/
def parsed (o : Host.Outcome State Fault Refusal) : Option (Byte × Byte × List Half) :=
  (after o).map fun b => (b.status, b.excCode, b.result)

/-- V50's frame. -/
def v50 : List Byte := [0x01#8, 0x03#8, 0x06#8, 0x00#8, 0x0A#8, 0x00#8, 0x00#8, 0xFF#8, 0xFF#8, 0xB8#8, 0xC4#8]

/-- V68's echo. -/
def v68 : List Byte := [0x01#8, 0x06#8, 0x00#8, 0x01#8, 0xFF#8, 0xFF#8, 0xD9#8, 0xBA#8]

/-- V6's padded exception frame. -/
def v65 : List Byte := [0x01#8, 0x83#8, 0x02#8, 0x00#8, 0x00#8, 0x00#8, 0x00#8, 0x00#8, 0x00#8, 0x6C#8, 0xD5#8]

/-- V20's short exception frame. -/
def v20 : List Byte := [0x01#8, 0x83#8, 0x02#8, 0xC0#8, 0xF1#8]

/-- PARSE_READ of `rx` with `QTY = q`. -/
def parseRead (q : Half) (rx : List Byte) (x : Bool := false) : Option (Byte × Byte × List Half) :=
  parsed (exec .parseRead (machine { start with qty := q, rx := rx } x))

/-- PARSE_WRITE of `rx`. -/
def parseWrite (rx : List Byte) (x : Bool := false) : Option (Byte × Byte × List Half) :=
  parsed (exec .parseWrite (machine { start with rx := rx } x))

/-! ### Well-formedness: each check refuses an ill-formed term (30_encoding.md R82, R84, R91) -/

theorem test_wf_rsv_refused : (commandFields 0x00010002#32).rsvOk = false := by decide
theorem test_wf_op_refused : (commandFields 0x00000013#32).opOk = false := by decide
theorem test_wf_imm_refused : (commandFields 0x00000110#32).immOk = false := by decide
theorem test_wf_word_refused :
    ([0x00010002#32, 0x00000013#32, 0x00000110#32].map fun w => (commandFields w).wf) = [false, false, false] := by
  decide
theorem test_wf_word_accepted : (commandFields 0x0000FF11#32).wf = true := by decide
theorem test_wf_wr_read_only_refused : (AsmLine.wr .status 5#32).wf = false := by decide
theorem test_wf_rdtx_refused : (AsmLine.rdtx 256).wf = false := by decide
theorem test_wf_rdrx_refused : (AsmLine.rdrx 256).wf = false := by decide
theorem test_wf_rdres_refused : (AsmLine.rdres 125).wf = false := by decide

/-! ### Decoding: words written out from 30_encoding.md R81 and R83, bit 31 on the left -/

theorem test_decode_nop : decode 0b00000000000000000000000000000000#32 = .instr .nop := by decide
theorem test_decode_crcInit : decode 0b00000000000000000000000000000001#32 = .instr .crcInit := by decide
theorem test_decode_crcByte : decode 0b00000000000000000100000100000010#32 = .instr (.crcByte 0x41#8) := by decide
theorem test_decode_txClear : decode 0b00000000000000000000000000010000#32 = .instr .txClear := by decide
theorem test_decode_txPush : decode 0b00000000000000001111111100010001#32 = .instr (.txPush 0xFF#8) := by decide
theorem test_decode_txAppendCrc : decode 0b00000000000000000000000000010010#32 = .instr .txAppendCrc := by decide
theorem test_decode_buildRead : decode 0b00000000000000000000000000100000#32 = .instr .buildRead := by decide
theorem test_decode_buildWrite : decode 0b00000000000000000000000000100001#32 = .instr .buildWrite := by decide
theorem test_decode_rxClear : decode 0b00000000000000000000000000110000#32 = .instr .rxClear := by decide
theorem test_decode_rxPush : decode 0b00000000000000001100010000110001#32 = .instr (.rxPush 0xC4#8) := by decide
theorem test_decode_parseRead : decode 0b00000000000000000000000001000000#32 = .instr .parseRead := by decide
theorem test_decode_parseWrite : decode 0b00000000000000000000000001000001#32 = .instr .parseWrite := by decide
theorem test_decode_illegal :
    [0x00000013#32, 0x00000110#32, 0x00010002#32].map decode =
      [.illegal .unassignedOp, .illegal .operandNotZero, .illegal .reservedNotZero] := by decide
theorem test_disassemble_illegal : disassemble 0x00000013#32 = .word 0x00000013#32 := by decide
theorem test_decodeTableWord : decodeTableWord 32 0x00003102 = some (.crcByte 0x31#8) := by decide

/-! ### The CRC engine -/

-- V30, V35, V36, V38
theorem test_crc_check_value :
    crc16 [0x31#8, 0x32#8, 0x33#8, 0x34#8, 0x35#8, 0x36#8, 0x37#8, 0x38#8, 0x39#8] = 0x4B37#16 := by decide +kernel
theorem test_crcStep_vectors :
    [crcStep 0xFFFF#16 0xFF#8, crcStep 0x0000#16 0xFF#8, crcStep 0x1234#16 0x56#8] =
      [0x00FF#16, 0x4040#16, 0xE993#16] := by decide +kernel
-- R103's example
theorem test_crcInit :
    (after (exec .crcInit (machine { start with crcAcc := 0x1234#16, status := 3#8 }))).map
      (fun b => (b.crcAcc, b.status)) = some (0xFFFF#16, 0x00#8) := by decide
-- V31
theorem test_crcByte :
    (after (exec (.crcByte 0x01#8) (machine start))).map (fun b => (b.crcAcc, b.status)) =
      some (0x807E#16, 0x00#8) := by decide +kernel

/-! ### The encoder -/

-- V1, V40
theorem test_buildRead :
    (after (exec .buildRead (machine { start with qty := 10#16, rx := [1#8] }))).map
      (fun b => (b.tx, b.rx, b.status)) =
      some ([0x01#8, 0x03#8, 0x00#8, 0x00#8, 0x00#8, 0x0A#8, 0xC5#8, 0xCD#8], [], 0x00#8) := by decide +kernel
-- V3 and section 2.3: a failing BUILD_READ empties TX and leaves RX
theorem test_buildRead_bounds :
    (after (exec .buildRead (machine { start with qty := 126#16, tx := [7#8], rx := [1#8, 2#8, 3#8] }))).map
      (fun b => (b.tx, b.rx, b.status)) = some ([], [1#8, 2#8, 3#8], 0x01#8) := by decide +kernel
-- V49
theorem test_buildWrite :
    (after (exec .buildWrite (machine { start with value := 0x12345678#32 }))).map (fun b => (b.tx, b.value)) =
      some ([0x01#8, 0x06#8, 0x00#8, 0x00#8, 0x56#8, 0x78#8, 0xB6#8, 0x48#8], 0x12345678#32) := by decide +kernel
-- R120
theorem test_txClear :
    (after (exec .txClear (machine { start with tx := [1#8, 2#8], status := 7#8 }))).map (fun b => (b.tx, b.status)) =
      some ([], 0x00#8) := by decide
-- V80, V81
theorem test_txPush_last :
    (after (exec (.txPush 0xAB#8) (machine { start with tx := List.replicate 255 0#8 }))).map
      (fun b => (b.tx.length, b.tx.getLast?, b.status)) = some (256, some 0xAB#8, 0x00#8) := by decide +kernel
theorem test_txPush_full :
    (after (exec (.txPush 0x55#8) (machine { start with tx := List.replicate 256 0#8 }))).map
      (fun b => (b.tx, b.status)) = some (List.replicate 256 0#8, 0x07#8) := by decide +kernel
-- V2 (last row), V83
theorem test_txAppendCrc :
    (after (exec .txAppendCrc (machine { start with tx := [0x01#8, 0x02#8, 0x03#8] }))).map (·.tx) =
      some [0x01#8, 0x02#8, 0x03#8, 0x61#8, 0x61#8] := by decide +kernel
theorem test_txAppendCrc_full :
    (after (exec .txAppendCrc (machine { start with tx := List.replicate 255 0#8 }))).map
      (fun b => (b.tx.length, b.status)) = some (255, 0x07#8) := by decide +kernel

/-! ### The decoder -/

-- R150: RESULT stays
theorem test_rxClear :
    (after (exec .rxClear (machine { start with rx := [1#8], result := [5#16] }))).map (fun b => (b.rx, b.result)) =
      some ([], [5#16]) := by decide
-- R151's example, V86
theorem test_rxPush :
    (after (exec (.rxPush 0x03#8) (machine { start with rx := [0x01#8] }))).map (·.rx) =
      some [0x01#8, 0x03#8] := by decide
theorem test_rxPush_full :
    (after (exec (.rxPush 0x01#8) (machine { start with rx := List.replicate 256 0#8 }))).map
      (fun b => (b.rx.length, b.status)) = some (256, 0x07#8) := by decide +kernel
-- V50
theorem test_parseRead_ok : parseRead 3#16 v50 = some (0x00#8, 0x00#8, [0x000A#16, 0x0000#16, 0xFFFF#16]) := by
  decide +kernel
-- V21
theorem test_parseRead_short_exception : parseRead 3#16 v20 true = some (0x05#8, 0x02#8, []) := by decide +kernel
-- V69
theorem test_parseWrite_clamped_echo :
    parseWrite [0x01#8, 0x06#8, 0x00#8, 0x01#8, 0x7F#8, 0xFF#8, 0xB8#8, 0x7A#8] = some (0x00#8, 0#8, []) := by
  decide +kernel
-- V74
theorem test_parseWrite_exception :
    parseWrite [0x01#8, 0x86#8, 0x03#8, 0x00#8, 0x00#8, 0x00#8, 0x88#8, 0x50#8] = some (0x05#8, 0x03#8, []) := by
  decide +kernel

/-- The verdict of the read stages on `rx`, with `QTY = q`. -/
def readStages (q : Half) (rx : List Byte) (x : Bool := false) : StatusCode :=
  readVerdict { excShortFrame := x } { start with qty := q, rx := rx }

-- the stages in order: V60, V52, V61, V53, V56, V65, V57, V58
theorem test_read_stages :
    [readStages 126#16 v50, readStages 3#16 (v50.take 10), readStages 3#16 (v50.set 4 0x0B#8),
     readStages 3#16 (v50 ++ [0x00#8]),
     readStages 3#16 [0x02#8, 0x83#8, 0x02#8, 0x00#8, 0x00#8, 0x00#8, 0x00#8, 0x00#8, 0x00#8, 0x78#8, 0x25#8],
     readStages 3#16 v65,
     readStages 3#16 [0x01#8, 0x04#8, 0x06#8, 0x00#8, 0x0A#8, 0x00#8, 0x00#8, 0xFF#8, 0xFF#8, 0xF9#8, 0x22#8],
     readStages 3#16 [0x01#8, 0x03#8, 0x05#8, 0x00#8, 0x0A#8, 0x00#8, 0x00#8, 0xFF#8, 0xFF#8, 0x8B#8, 0xC4#8]] =
      [.validation, .shortRead, .crc, .malformed, .slaveMismatch, .protocolException, .malformed, .malformed] := by
  decide +kernel
-- the short exception frame: V20, V22, V23, V25, V26
theorem test_short_exception_stages :
    [readStages 3#16 v20, readStages 3#16 (v20.set 4 0xF0#8) true, readStages 3#16 (v20.set 1 0x03#8) true,
     readStages 3#16 [0x02#8, 0x83#8, 0x02#8, 0x30#8, 0xF1#8] true, readStages 0#16 v20 true] =
      [.shortRead, .crc, .shortRead, .slaveMismatch, .validation] := by decide +kernel

/-! ### Control and the host port -/

-- V90 (R190's example)
theorem test_nop : after (exec .nop (machine { start with status := 3#8 })) = some { start with status := 0#8 } := by
  decide
-- V91
theorem test_illegal_word :
    after (step (machine start false [.write 0x000#12 0x00000013#32])) = some { start with status := 0x08#8 } := by
  decide
-- V94
theorem test_cmd_write_runs :
    (after (step (machine start false [.write 0x000#12 0x0000FF11#32]))).map (·.tx) = some [0xFF#8] := by decide
-- V96, V97, V99
theorem test_register_writes :
    [after (step (machine start false [.write 0x008#12 0x000001FF#32])),
     after (step (machine start false [.write 0x00C#12 0xABCD1234#32])),
     after (step (machine start false [.write 0x004#12 5#32])),
     after (step (machine start false [.write 0x00A#12 7#32]))] =
      [some { start with slave := 0xFF#8 }, some { start with addr := 0x1234#16 }, some start, some start] := by decide
-- V95, section 2.6: CMD, misaligned, reserved, CRC_ACC, an empty window
theorem test_register_reads :
    [0x000#12, 0x006#12, 0x030#12, 0xDF4#12, 0xFFC#12, 0x018#12, 0x404#12, 0xC00#12].map
      (hostRead Params.baseline Block.reset) = [0#32, 0#32, 0#32, 0#32, 0#32, 0x0000FFFF#32, 0#32, 0#32] := by decide
-- section 2.6: CONFIG; after V50, RESULT[2] and RESULT[3]
theorem test_config_read :
    [hostRead { excShortFrame := false } start 0x02C#12, hostRead { excShortFrame := true } start 0x02C#12] =
      [0#32, 1#32] := by decide
theorem test_result_window :
    [0xC08#12, 0xC0C#12].map (hostRead Params.baseline { start with result := [0x000A#16, 0#16, 0xFFFF#16] }) =
      [0x0000FFFF#32, 0#32] := by decide
theorem test_read_replies :
    repliesAfter (step (machine start false [.read 0x008#12])) = some [1#32] := by decide
-- R230
theorem test_reset_event :
    after (step (machine { start with tx := [1#8], status := 5#8 } true [.reset])) = some Block.reset := by decide
-- V100: BUILD_READ straight after reset, fetched as the first command
theorem test_first_command :
    (after (step (State.reset.withFetchWord 32 0x00000020))).map (·.status) = some 0x01#8 := by decide

/-! ### Inputs that meet the statements' hypotheses -/

/-- A frame that carries a valid CRC, by its payload. -/
theorem framed_valid (p : List Byte) : CrcValid (framed p) := ⟨p, rfl⟩

theorem v50_framed : v50 = framed (v50.take 9) := by decide +kernel
theorem v68_framed : v68 = framed (v68.take 6) := by decide +kernel
theorem v65_framed : v65 = framed (v65.take 9) := by decide +kernel
theorem v20_framed : v20 = framed (v20.take 3) := by decide +kernel

theorem witness_CommandDecodingRule :
    ∃ w w' : Word, (∃ row ∈ opcodeRows, w &&& row.2.2 = row.2.1) ∧ ∀ row ∈ opcodeRows, w' &&& row.2.2 ≠ row.2.1 :=
  ⟨0x00004102#32, 0x00000013#32, by decide, by decide⟩

theorem witness_StepRunsDecodedCommand :
    ∃ (s : State) (rest : List HostEvent) (w : Word) (i : Instr),
      s.port = .write 0x000#12 w :: rest ∧ decode w = .instr i :=
  ⟨machine start false [.write 0x000#12 0x00004102#32], [], 0x00004102#32, .crcByte 0x41#8, rfl, by decide⟩

theorem witness_IllegalWordRule : ∃ w : Word, ∀ i, decode w ≠ .instr i := by
  refine ⟨0x00000013#32, fun i h => ?_⟩
  rw [show decode 0x00000013#32 = .illegal .unassignedOp by decide] at h
  exact Decoded.noConfusion h

theorem witness_StepKeepsInvariant : ∃ s : State, s.Inv ∧ s.block.tx.length = 256 ∧ s.block.excCode ≠ 0x00#8 :=
  ⟨machine { start with tx := List.replicate 256 0#8, excCode := 2#8 },
    ⟨by decide +kernel, by decide, by decide, by decide, fun _ => rfl⟩, by decide +kernel, by decide⟩

theorem witness_WaitsForHost : ∃ s : State, s.port = [] := ⟨State.reset, rfl⟩

theorem witness_TransactionsInOrder :
    ∃ (s s' : State) (rest : List HostEvent),
      s.port = .read 0x004#12 :: rest ∧ s'.port = .write 0x000#12 0#32 :: rest ∧ rest ≠ [] :=
  ⟨machine start false [.read 0x004#12, .reset], machine start false [.write 0x000#12 0#32, .reset], [.reset],
    rfl, rfl, by decide⟩

theorem witness_WindowReads :
    [hostRead Params.baseline { start with tx := List.replicate 256 9#8 } (BitVec.ofNat 12 (0x400 + 4 * 255)),
     hostRead Params.baseline { start with rx := List.replicate 256 8#8 } (BitVec.ofNat 12 (0x800 + 4 * 255)),
     hostRead Params.baseline { start with result := List.replicate 125 7#16 } (BitVec.ofNat 12 (0xC00 + 4 * 124))] =
      [9#32, 8#32, 7#32] := by decide +kernel

theorem witness_MisalignedAccess :
    [0x001#12, 0x006#12, 0x00A#12, 0xFFF#12].map (fun off => off.extractLsb' 0 2) = [1#2, 2#2, 2#2, 3#2] := by decide

/-- The ends of the ranges of the statement `ReservedAndReadOnly`: each offset is aligned and in its range. -/
theorem witness_ReservedAndReadOnly :
    ([0x030#12, 0x3FC#12, 0xDF4#12, 0xFFC#12].all fun off => off.toNat % 4 = 0 ∧
      ((0x030 ≤ off.toNat ∧ off.toNat ≤ 0x3FC) ∨ 0xDF4 ≤ off.toNat)) = true ∧
    ([0x004#12, 0x018#12, 0x02C#12, 0x400#12, 0xDF0#12].all fun off => off.toNat % 4 = 0 ∧
      (off.toNat = 0x004 ∨ 0x018 ≤ off.toNat)) = true := by decide

theorem witness_OnlyCmdWritesRunCommands :
    ∃ e : HostEvent, e ≠ .reset ∧ ∀ data, e ≠ .write 0x000#12 data :=
  ⟨.write 0x008#12 1#32, by decide, fun data h => by simp at h⟩

theorem witness_ReadsAndWritesIdempotent :
    0x008#12 ∈ [0x008#12, 0x00C#12, 0x010#12, 0x014#12] ∧ 0x014#12 ∈ [0x008#12, 0x00C#12, 0x010#12, 0x014#12] := by
  decide

theorem witness_CrcInitRule : ∃ w : Word, w.extractLsb' 0 8 = 0x01#8 ∧ w ≠ 0x00000001#32 :=
  ⟨0x00000101#32, by decide, by decide⟩

theorem witness_CrcProtectsResponses_read :
    ∃ (s : State) (j k : Nat), CrcValid s.block.rx ∧ j < s.block.rx.length ∧ k < 8 ∧ 1 ≤ s.block.qty.toNat ∧
      s.block.qty.toNat ≤ 125 ∧ s.block.rx.length = 5 + 2 * s.block.qty.toNat :=
  ⟨machine { start with qty := 3#16, rx := v50 }, 10, 7, ⟨_, v50_framed⟩, by decide, by decide, by decide, by decide,
    by decide⟩

theorem witness_CrcProtectsResponses_write :
    ∃ (s : State) (j k : Nat), CrcValid s.block.rx ∧ j < s.block.rx.length ∧ k < 8 ∧ s.block.rx.length = 8 :=
  ⟨machine { start with rx := v68 }, 0, 0, ⟨_, v68_framed⟩, by decide, by decide, by decide⟩

theorem witness_TxPushEffect :
    ∃ s s' : State, s.block.tx.length ≠ 256 ∧ s.block.tx.length = 255 ∧ s'.block.tx.length = 256 :=
  ⟨machine { start with tx := List.replicate 255 0#8 }, machine { start with tx := List.replicate 256 0#8 },
    by decide +kernel, by decide +kernel, by decide +kernel⟩

theorem witness_TxAppendCrcRule :
    ∃ s s' s'' : State, s.block.tx.length = 254 ∧ 255 ≤ s'.block.tx.length ∧ s''.block.tx.length = 252 :=
  ⟨machine { start with tx := List.replicate 254 0#8 }, machine { start with tx := List.replicate 255 0#8 },
    machine { start with tx := List.replicate 252 0#8 }, by decide +kernel, by decide +kernel, by decide +kernel⟩

theorem witness_BuildReadEffect :
    ∃ s s' s'' s''' : State, s.block.qty.toNat = 1 ∧ s'.block.qty.toNat = 125 ∧ s''.block.qty.toNat = 0 ∧
      s'''.block.qty.toNat = 126 :=
  ⟨machine { start with qty := 1#16 }, machine { start with qty := 125#16 }, machine start,
    machine { start with qty := 126#16 }, by decide, by decide, by decide, by decide⟩

theorem witness_WriteValueMasked :
    ∃ (s : State) (v : Word), v.toNat % 2 ^ 16 = s.block.value.toNat % 2 ^ 16 ∧ v ≠ s.block.value :=
  ⟨machine { start with value := 0x0001FFFF#32 }, 0x0000FFFF#32, by decide, by decide⟩

theorem witness_RxPushRule :
    ∃ s s' : State, s.block.rx.length = 255 ∧ s.block.rx.length ≠ 256 ∧ s'.block.rx.length = 256 :=
  ⟨machine { start with rx := List.replicate 255 0#8 }, machine { start with rx := List.replicate 256 0#8 },
    by decide +kernel, by decide +kernel, by decide +kernel⟩

theorem witness_ParseReadAcceptsExactly :
    ∃ (s : State) (ws : List Half), 1 ≤ ws.length ∧ ws.length ≤ 125 ∧ ws.length = s.block.qty.toNat ∧
      s.block.rx = readResponse s.block.slave ws :=
  ⟨machine { start with qty := 3#16, rx := v50 }, [0x000A#16, 0x0000#16, 0xFFFF#16], by decide, by decide, by decide,
    by decide +kernel⟩

theorem witness_ParseReadsOnlyItsOperands :
    ∃ s s' : State, s.params = s'.params ∧ s.block.rx = s'.block.rx ∧ s.block.slave = s'.block.slave ∧
      s.block.qty = s'.block.qty ∧ s.block.addr ≠ s'.block.addr ∧ s.block.value ≠ s'.block.value :=
  ⟨machine { start with rx := v68 }, machine { start with rx := v68, addr := 1#16, value := 2#32 },
    by decide, by decide, by decide, by decide, by decide, by decide⟩

theorem witness_ShortExceptionFrame :
    ∃ (s s' : State) (a f c l h : Byte), s.block.rx = [a, f, c, l, h] ∧ s'.block.rx = [a, f, c, l, h] ∧
      s.params.excShortFrame = true ∧ s'.params.excShortFrame = false ∧ f.getLsbD 7 = true ∧
      1 ≤ s.block.qty.toNat ∧ s.block.qty.toNat ≤ 125 :=
  ⟨machine { start with qty := 3#16, rx := v20 } true, machine { start with qty := 3#16, rx := v20 }, 0x01#8, 0x83#8,
    0x02#8, 0xC0#8, 0xF1#8, by decide, by decide, by decide, by decide, by decide, by decide, by decide⟩

theorem witness_OneExtraByte :
    ∃ s : State, 1 ≤ s.block.qty.toNat ∧ s.block.qty.toNat ≤ 125 ∧
      s.block.rx.length = 5 + 2 * s.block.qty.toNat ∧ CrcValid s.block.rx :=
  ⟨machine { start with qty := 3#16, rx := v50 }, by decide, by decide, by decide, ⟨_, v50_framed⟩⟩

theorem witness_StaleBytesNeverAccepted :
    ∃ (s s' : State) (old resp resp' : List Byte), s.block.rx = old ++ resp ∧ s'.block.rx = old ++ resp' ∧ old ≠ [] ∧
      1 ≤ s.block.qty.toNat ∧ s.block.qty.toNat ≤ 125 ∧ resp.length = 5 + 2 * s.block.qty.toNat ∧ resp'.length = 8 :=
  ⟨machine { start with qty := 3#16, rx := [0x55#8] ++ v50 }, machine { start with rx := [0x55#8] ++ v68 }, [0x55#8],
    v50, v68, rfl, rfl, by decide, by decide, by decide, by decide, by decide⟩

theorem witness_FramePseudoInstructions :
    ∃ (s s' s'' : State) (bytes : List Byte) (rest : List HostEvent), bytes.length = 256 ∧
      s.port = asmEvents (expand (.crc16 bytes)) ++ rest ∧ s'.port = asmEvents (expand (.txFrame bytes)) ++ rest ∧
      s''.port = asmEvents (expand (.rxFrame bytes)) ++ rest :=
  ⟨machine start false (asmEvents (expand (.crc16 (List.replicate 256 0#8))) ++ [.reset]),
    machine start false (asmEvents (expand (.txFrame (List.replicate 256 0#8))) ++ [.reset]),
    machine start false (asmEvents (expand (.rxFrame (List.replicate 256 0#8))) ++ [.reset]),
    List.replicate 256 0#8, [.reset], List.length_replicate, rfl, rfl, rfl⟩

theorem witness_RequestPseudoInstructions :
    ∃ (s s' : State) (sl a q : Word) (rest : List HostEvent), s.port = asmEvents (expand (.readReq sl a q)) ++ rest ∧
      s'.port = asmEvents (expand (.writeReq sl a q)) ++ rest ∧ 1 ≤ q.toNat % 2 ^ 16 ∧ q.toNat % 2 ^ 16 ≤ 125 :=
  ⟨machine start false (asmEvents (expand (.readReq 0x11#32 0x6B#32 0xABCD007D#32))),
    machine start false (asmEvents (expand (.writeReq 0x11#32 0x6B#32 0xABCD007D#32))), 0x11#32, 0x6B#32,
    0xABCD007D#32, [], by simp [machine], by simp [machine], by decide, by decide⟩

theorem witness_ReadExchangeDelivers :
    ∃ (s : State) (slave : Byte) (addr : Half) (ws : List Half) (rest : List HostEvent),
      1 ≤ ws.length ∧ ws.length ≤ 125 ∧
      s.port = asmEvents (expand (.readReq (slave.zeroExtend 32) (addr.zeroExtend 32) (BitVec.ofNat 32 ws.length)) ++
        (readResponse slave ws).map (fun b => .command (.rxPush b)) ++ [.command .parseRead]) ++ rest :=
  ⟨machine start false (asmEvents (expand (.readReq ((0x01#8).zeroExtend 32) ((0x0000#16).zeroExtend 32)
      (BitVec.ofNat 32 3)) ++ (readResponse 0x01#8 [0x000A#16, 0x0000#16, 0xFFFF#16]).map
        (fun b => .command (.rxPush b)) ++ [.command .parseRead]) ++ [.reset]),
    0x01#8, 0x0000#16, [0x000A#16, 0x0000#16, 0xFFFF#16], [.reset], by decide, by decide, rfl⟩

theorem witness_ExceptionCodeRule :
    ∃ s : State, (∃ t, exec .parseRead s = .next t ∧ t.block.excCode ≠ 0x00#8) ∧
      (Instr.nop ≠ .parseRead ∧ Instr.nop ≠ .parseWrite) :=
  ⟨machine { start with qty := 3#16, rx := v65 }, ⟨_, rfl, by decide +kernel⟩, by decide, by decide⟩

theorem witness_FailureLeavesNoPartialEffect :
    ∃ s s' : State,
      (∀ i ∈ [Instr.txPush 1#8, .txAppendCrc, .buildRead, .parseRead, .parseWrite],
        (after (exec i s)).map (·.status) ≠ some 0x00#8) ∧
      (after (exec (.rxPush 1#8) s')).map (·.status) ≠ some 0x00#8 :=
  ⟨machine { start with tx := List.replicate 256 0#8 }, machine { start with rx := List.replicate 256 0#8 },
    by decide +kernel, by decide +kernel⟩

theorem witness_NopRule : Instr.txClear ≠ .nop := by decide

end Sys2Proof.Tests
end

/-!
PROOFS. The state family (10_state.md R31 to R33): the answer of each command as one equation per exit, the invariant
over each of the block's operations, and the statements about the invariant, CONFIG and the Written by column.
-/

namespace Sys2Proof.Machine

/-! ### What each command answers, one equation per exit -/

section Commands
variable (s : State)

theorem exec_nop : exec .nop s = .next (s.withBlock (finishOk s.block)) := rfl

theorem exec_crcInit : exec .crcInit s = .next (s.withBlock (finishOk { s.block with crcAcc := 0xFFFF#16 })) := rfl

theorem exec_crcByte (b : Byte) :
    exec (.crcByte b) s = .next (s.withBlock (finishOk { s.block with crcAcc := crcStep s.block.crcAcc b })) := rfl

theorem exec_txClear : exec .txClear s = .next (s.withBlock (finishOk { s.block with tx := [] })) := rfl

theorem exec_buildWrite :
    exec .buildWrite s = .next (s.withBlock (finishOk { s.block with
      tx := request s.block.slave 0x06#8 s.block.addr (writeValue s.block.value), rx := [] })) := rfl

theorem exec_rxClear : exec .rxClear s = .next (s.withBlock (finishOk { s.block with rx := [] })) := rfl

theorem exec_parseRead :
    exec .parseRead s = .next (s.withBlock (finishParse (readVerdict s.params s.block)
      (decodeWords s.block.rx s.block.qty.toNat) s.block)) := rfl

theorem exec_parseWrite :
    exec .parseWrite s = .next (s.withBlock (finishParse (writeVerdict s.params s.block) [] s.block)) := rfl

variable {s}

theorem exec_txPush_of_full (b : Byte) (h : s.block.tx.length = 256) :
    exec (.txPush b) s = .next (s.withBlock (raiseErr .capacity s.block)) := by
  have hp : pushByte Config.txCap s.block.tx b = none := pushByte_eq_none.2 h
  simp only [exec, execTxPush, hp]

theorem exec_txPush_of_room (b : Byte) (h : s.block.tx.length ≠ 256) :
    exec (.txPush b) s = .next (s.withBlock (finishOk { s.block with tx := s.block.tx ++ [b] })) := by
  have hp : pushByte Config.txCap s.block.tx b = some (s.block.tx ++ [b]) := pushByte_eq_some.2 ⟨h, rfl⟩
  simp only [exec, execTxPush, hp]

theorem exec_rxPush_of_full (b : Byte) (h : s.block.rx.length = 256) :
    exec (.rxPush b) s = .next (s.withBlock (raiseErr .capacity s.block)) := by
  have hp : pushByte Config.rxCap s.block.rx b = none := pushByte_eq_none.2 h
  simp only [exec, execRxPush, hp]

theorem exec_rxPush_of_room (b : Byte) (h : s.block.rx.length ≠ 256) :
    exec (.rxPush b) s = .next (s.withBlock (finishOk { s.block with rx := s.block.rx ++ [b] })) := by
  have hp : pushByte Config.rxCap s.block.rx b = some (s.block.rx ++ [b]) := pushByte_eq_some.2 ⟨h, rfl⟩
  simp only [exec, execRxPush, hp]

theorem exec_txAppendCrc_of_full (h : 254 < s.block.tx.length) :
    exec .txAppendCrc s = .next (s.withBlock (raiseErr .capacity s.block)) := by
  have hp : pushCrc Config.txCap s.block.tx = none := pushCrc_eq_none.2 h
  simp only [exec, execTxAppendCrc, hp]

theorem exec_txAppendCrc_of_room (h : s.block.tx.length ≤ 254) :
    exec .txAppendCrc s = .next (s.withBlock (finishOk { s.block with tx := appendCrc s.block.tx })) := by
  have hp : pushCrc Config.txCap s.block.tx = some (appendCrc s.block.tx) := pushCrc_eq_some.2 ⟨h, rfl⟩
  simp only [exec, execTxAppendCrc, hp]

theorem exec_buildRead_of_qtyOk (h : qtyOk s.block.qty = true) :
    exec .buildRead s = .next (s.withBlock (finishOk { s.block with
      tx := request s.block.slave 0x03#8 s.block.addr s.block.qty, rx := [] })) :=
  if_pos h

theorem exec_buildRead_of_not_qtyOk (h : ¬ qtyOk s.block.qty = true) :
    exec .buildRead s = .next (s.withBlock (raiseErr .validation { s.block with tx := [] })) :=
  if_neg h

end Commands

/-! ### The invariant over the operations on the block -/

theorem reset_inv : Block.reset.Inv :=
  ⟨Nat.zero_le _, Nat.zero_le _, Nat.zero_le _, Nat.zero_le _, fun _ => rfl⟩

section Invariant
variable {b : Block} (hb : b.Inv)
include hb

/-- The invariant does not speak of the operand registers, which are all that a register write changes. -/
theorem regStore_inv (r : HostReg) (data : Word) : (regStore r data b).Inv := by
  obtain ⟨sl, ad, qt, va, e⟩ := regStore_eq r data b
  rw [e]
  exact ⟨hb.txLen, hb.rxLen, hb.resultLen, hb.status, hb.excNoResult⟩

theorem withCrcAcc_inv (c : Half) : Block.Inv { b with crcAcc := c } :=
  ⟨hb.txLen, hb.rxLen, hb.resultLen, hb.status, hb.excNoResult⟩

theorem withTx_inv {tx : List Byte} (h : tx.length ≤ 256) : Block.Inv { b with tx := tx } :=
  ⟨h, hb.rxLen, hb.resultLen, hb.status, hb.excNoResult⟩

theorem withRx_inv {rx : List Byte} (h : rx.length ≤ 256) : Block.Inv { b with rx := rx } :=
  ⟨hb.txLen, h, hb.resultLen, hb.status, hb.excNoResult⟩

theorem raiseErr_inv (c : StatusCode) : (raiseErr c b).Inv :=
  ⟨hb.txLen, hb.rxLen, hb.resultLen, code_le c, hb.excNoResult⟩

/-- `finish OK` is the report of the code 0x00 (00_scope.md R10). -/
theorem finishOk_inv : (finishOk b).Inv := raiseErr_inv hb .ok

/-- A built frame has 8 bytes (41_encoder.md R123), and RX is emptied with it (R128). -/
theorem buildFrame_inv (slave fc : Byte) (f1 f2 : Half) :
    Block.Inv { b with tx := request slave fc f1 f2, rx := [] } := by
  have hlen : (request slave fc f1 f2).length ≤ 256 := by simp
  exact withRx_inv (withTx_inv hb hlen) (Nat.zero_le _)

/-- A parse writes RESULT and EXC_CODE together (42_decoder.md R165, R166): a non-zero EXC_CODE comes with the verdict
ERR_PROTOCOL_EXCEPTION, which is not OK, so RESULT is then empty. -/
theorem finishParse_inv {v : StatusCode} {words : List Half} (hw : v = .ok → words.length ≤ 125) :
    (finishParse v words b).Inv where
  txLen := hb.txLen
  rxLen := hb.rxLen
  resultLen := by
    rw [finishParse_result]
    split
    · exact hw ‹_›
    · exact Nat.zero_le _
  status := code_le v
  excNoResult := by
    intro hexc
    have hv : v = .protocolException := by
      by_contra hne
      exact hexc (if_neg hne)
    simp [hv]

end Invariant

/-- PARSE_READ answers OK for a valid quantity only (42_decoder.md R162), so it decodes at most 125 words. -/
theorem decodeWords_length_le_of_readVerdict_ok {p : Params} {b : Block} (h : readVerdict p b = .ok) :
    (decodeWords b.rx b.qty.toNat).length ≤ 125 := by
  obtain ⟨hq, -, -⟩ := readVerdict_ok_iff.1 h
  rw [decodeWords_length]
  exact ((qtyOk_iff _).1 hq).2

/-! ### The invariant over commands, transactions and steps -/

section Steps
variable {s : State} (hs : s.Inv)
include hs

theorem exec_keeps_inv (i : Instr) : ∃ t, exec i s = .next t ∧ t.Inv := by
  have htx := hs.txLen
  have hrx := hs.rxLen
  cases i with
  | nop => exact ⟨_, exec_nop s, finishOk_inv hs⟩
  | crcInit => exact ⟨_, exec_crcInit s, finishOk_inv (withCrcAcc_inv hs _)⟩
  | crcByte b => exact ⟨_, exec_crcByte s b, finishOk_inv (withCrcAcc_inv hs _)⟩
  | txClear => exact ⟨_, exec_txClear s, finishOk_inv (withTx_inv hs (Nat.zero_le _))⟩
  | txPush b =>
    by_cases h : s.block.tx.length = 256
    · exact ⟨_, exec_txPush_of_full b h, raiseErr_inv hs _⟩
    · have hlen : (s.block.tx ++ [b]).length ≤ 256 := by simp; omega
      exact ⟨_, exec_txPush_of_room b h, finishOk_inv (withTx_inv hs hlen)⟩
  | txAppendCrc =>
    by_cases h : s.block.tx.length ≤ 254
    · have hlen : (appendCrc s.block.tx).length ≤ 256 := by simp; omega
      exact ⟨_, exec_txAppendCrc_of_room h, finishOk_inv (withTx_inv hs hlen)⟩
    · exact ⟨_, exec_txAppendCrc_of_full (not_le.1 h), raiseErr_inv hs _⟩
  | buildRead =>
    by_cases h : qtyOk s.block.qty = true
    · exact ⟨_, exec_buildRead_of_qtyOk h, finishOk_inv (buildFrame_inv hs _ _ _ _)⟩
    · exact ⟨_, exec_buildRead_of_not_qtyOk h, raiseErr_inv (withTx_inv hs (Nat.zero_le _)) _⟩
  | buildWrite => exact ⟨_, exec_buildWrite s, finishOk_inv (buildFrame_inv hs _ _ _ _)⟩
  | rxClear => exact ⟨_, exec_rxClear s, finishOk_inv (withRx_inv hs (Nat.zero_le _))⟩
  | rxPush b =>
    by_cases h : s.block.rx.length = 256
    · exact ⟨_, exec_rxPush_of_full b h, raiseErr_inv hs _⟩
    · have hlen : (s.block.rx ++ [b]).length ≤ 256 := by simp; omega
      exact ⟨_, exec_rxPush_of_room b h, finishOk_inv (withRx_inv hs hlen)⟩
  | parseRead => exact ⟨_, exec_parseRead s, finishParse_inv hs decodeWords_length_le_of_readVerdict_ok⟩
  | parseWrite => exact ⟨_, exec_parseWrite s, finishParse_inv hs fun _ => Nat.zero_le _⟩

theorem runCommandWord_keeps_inv (w : Word) : ∃ t, runCommandWord w s = .next t ∧ t.Inv := by
  unfold runCommandWord
  cases decode w with
  | instr i => exact exec_keeps_inv hs i
  | illegal _ => exact ⟨_, rfl, raiseErr_inv hs _⟩

theorem performEvent_keeps_inv (e : HostEvent) : ∃ t, performEvent e s = .next t ∧ t.Inv := by
  cases e with
  | read off => exact ⟨_, rfl, hs⟩
  | write off data =>
    obtain ⟨-, e⟩ | ⟨r, -, -, e⟩ | ⟨-, e⟩ := hostWriteAccess_cases off data s
    · obtain ⟨t, ht, hinv⟩ := runCommandWord_keeps_inv hs data
      exact ⟨t, e.trans ht, hinv⟩
    · exact ⟨_, e, regStore_inv hs r data⟩
    · exact ⟨_, e, hs⟩
  | reset => exact ⟨_, rfl, reset_inv⟩

theorem step_keeps_inv : ∃ t, step s = .next t ∧ t.Inv := by
  unfold step
  cases s.port with
  | nil => exact ⟨s, rfl, hs⟩
  | cons e rest => exact performEvent_keeps_inv (s := s.withPort rest) hs e

end Steps

/-! ### What reads CONFIG, and that no transaction writes the parameter -/

/-- The read value of a named register at its own offset (20_memory.md R53). -/
@[simp] theorem hostRead_regOffset (p : Params) (b : Block) (r : HostReg) :
    hostRead p b (regOffset r) = regValue p b r := by
  simp only [hostRead, hostTarget_regOffset]

theorem hostRead_config (p : Params) (b : Block) : hostRead p b 0x02C#12 = configWord p :=
  hostRead_regOffset p b .config

theorem configWord_bits (p : Params) :
    (configWord p).getLsbD 0 = p.excShortFrame ∧ configWord p >>> 1 = 0x00000000#32 := by
  obtain ⟨x⟩ := p
  cases x <;> decide

theorem runCommandWord_eq_withBlock (w : Word) (s : State) : ∃ b, runCommandWord w s = .next (s.withBlock b) := by
  unfold runCommandWord
  cases decode w with
  | instr i => exact exec_eq_withBlock i s
  | illegal _ => exact ⟨_, rfl⟩

theorem hostWriteAccess_eq_withBlock (off : Offset) (data : Word) (s : State) :
    ∃ b, hostWriteAccess off data s = .next (s.withBlock b) := by
  obtain ⟨-, e⟩ | ⟨r, -, -, e⟩ | ⟨-, e⟩ := hostWriteAccess_cases off data s
  · rw [e]
    exact runCommandWord_eq_withBlock data s
  · exact ⟨_, e⟩
  · exact ⟨s.block, e⟩

theorem performEvent_params (e : HostEvent) (s : State) :
    ∃ t, performEvent e s = .next t ∧ t.params = s.params := by
  cases e with
  | read off => exact ⟨_, rfl, rfl⟩
  | write off data =>
    obtain ⟨b, e⟩ := hostWriteAccess_eq_withBlock off data s
    exact ⟨_, e, rfl⟩
  | reset => exact ⟨_, rfl, rfl⟩

/-! ### The statements -/

/-- Settles O8: by the case split of `step`, `performEvent` and `exec`, each branch an operation that keeps the
invariant. -/
theorem stepKeepsInvariant : Obligations.StepKeepsInvariant :=
  fun _ hs => step_keeps_inv hs

/-- Settles O15: CONFIG is computed from the parameter alone, which no command and no transaction writes. -/
theorem configRule : Obligations.ConfigRule := by
  unfold Obligations.ConfigRule
  simp only [hostRead_config]
  refine ⟨fun p _ => configWord_bits p, fun i s => ?_, fun e s => ?_⟩
  · obtain ⟨b, e⟩ := exec_eq_withBlock i s
    exact ⟨_, e, rfl⟩
  · obtain ⟨t, ht, hp⟩ := performEvent_params e s
    exact ⟨t, ht, congrArg configWord hp⟩

/-- Settles O53: each exit of each command is one update of the block, and the fields of that update are those that
10_state.md R32 lets the command write. -/
theorem writtenOnlyBy : Obligations.WrittenOnlyBy := by
  intro i s
  cases i with
  | nop => exact ⟨_, exec_nop s, by simp⟩
  | crcInit => exact ⟨_, exec_crcInit s, by simp⟩
  | crcByte b => exact ⟨_, exec_crcByte s b, by simp⟩
  | txClear => exact ⟨_, exec_txClear s, by simp⟩
  | txPush b =>
    by_cases h : s.block.tx.length = 256
    · exact ⟨_, exec_txPush_of_full b h, by simp⟩
    · exact ⟨_, exec_txPush_of_room b h, by simp⟩
  | txAppendCrc =>
    by_cases h : s.block.tx.length ≤ 254
    · exact ⟨_, exec_txAppendCrc_of_room h, by simp⟩
    · exact ⟨_, exec_txAppendCrc_of_full (not_le.1 h), by simp⟩
  | buildRead =>
    by_cases h : qtyOk s.block.qty = true
    · exact ⟨_, exec_buildRead_of_qtyOk h, by simp⟩
    · exact ⟨_, exec_buildRead_of_not_qtyOk h, by simp⟩
  | buildWrite => exact ⟨_, exec_buildWrite s, by simp⟩
  | rxClear => exact ⟨_, exec_rxClear s, by simp⟩
  | rxPush b =>
    by_cases h : s.block.rx.length = 256
    · exact ⟨_, exec_rxPush_of_full b h, by simp⟩
    · exact ⟨_, exec_rxPush_of_room b h, by simp⟩
  | parseRead => exact ⟨_, exec_parseRead s, by simp⟩
  | parseWrite => exact ⟨_, exec_parseWrite s, by simp⟩

/-- Settles O7: reset empties the lists and clears STATUS and EXC_CODE, whatever the parameter. -/
theorem invariantAtReset : Obligations.InvariantAtReset :=
  ⟨rfl, fun _ => reset_inv⟩

end Sys2Proof.Machine

/-!
PROOFS. The host register space (20_memory.md R53 to R65): what each offset selects, what a read returns, what a write
stores or ignores, and that a step performs one transaction of the port.
-/

namespace Sys2Proof.Machine

/-! ### What an offset selects -/

/-- A named register is selected by its own offset and by no other (20_memory.md R53). -/
theorem hostTarget_eq_reg_iff {off : Offset} {r : HostReg} : hostTarget off = .reg r ↔ off = regOffset r := by
  refine ⟨fun h => ?_, fun h => h ▸ hostTarget_regOffset r⟩
  unfold hostTarget at h
  split at h
  · exact BitVec.eq_of_toNat_eq (eq_regOffset_of_alignedTarget h)
  · cases h

theorem hostTarget_misaligned {off : Offset} (h : off.extractLsb' 0 2 ≠ 0#2) : hostTarget off = .misaligned :=
  if_neg h

/-- The two reserved ranges of 20_memory.md R53, below and above the windows. -/
theorem hostTarget_reserved {off : Offset} (h4 : off.toNat % 4 = 0)
    (h : (0x030 ≤ off.toNat ∧ off.toNat ≤ 0x3FC) ∨ 0xDF4 ≤ off.toNat) : hostTarget off = .reserved := by
  rw [hostTarget_of_mod h4]
  obtain ⟨hlo, hhi⟩ | hhi := h
  · exact alignedTarget_reserved hlo (by omega)
  · rw [alignedTarget_of_ge (by omega), if_neg (by omega), if_neg (by omega), if_neg (by omega)]

/-- The offsets of 20_memory.md R53 at which no RW register stands: 0x004 and those from 0x018 on. -/
theorem isRW_false_of_regOffset {r : HostReg} (h : (regOffset r).toNat = 0x004 ∨ 0x018 ≤ (regOffset r).toNat) :
    r.isRW = false := by
  revert h
  cases r <;> decide

/-- The four offsets of the RW registers (20_memory.md R53). -/
theorem eq_regOffset_of_mem_rw {off : Offset} (h : off ∈ [0x008#12, 0x00C#12, 0x010#12, 0x014#12]) :
    ∃ r, r ≠ .cmd ∧ off = regOffset r := by
  simp only [List.mem_cons, List.not_mem_nil, or_false] at h
  obtain h | h | h | h := h
  · exact ⟨.slave, by decide, h⟩
  · exact ⟨.addr, by decide, h⟩
  · exact ⟨.qty, by decide, h⟩
  · exact ⟨.value, by decide, h⟩

/-! ### What a read returns -/

/-- A read adds its value to the replies and leaves the rest of the state (20_memory.md R55, R60). -/
theorem performEvent_read (off : Offset) (s : State) :
    performEvent (.read off) s = .next (s.reply (hostRead s.params s.block off)) := rfl

theorem performEvent_read_block (off : Offset) (s : State) :
    ∃ t, performEvent (.read off) s = .next t ∧ t.block = s.block :=
  ⟨_, performEvent_read off s, State_reply_block s _⟩

section HostRead
variable (p : Params) (b : Block)

theorem hostRead_of_misaligned {off : Offset} (h : hostTarget off = .misaligned) :
    hostRead p b off = 0x00000000#32 := by
  simp only [hostRead, h]

theorem hostRead_of_reserved {off : Offset} (h : hostTarget off = .reserved) : hostRead p b off = 0x00000000#32 := by
  simp only [hostRead, h]

theorem hostRead_txBuf {i : Nat} (h : i ≤ 255) :
    hostRead p b (BitVec.ofNat 12 (0x400 + 4 * i)) = (b.tx.getD i 0x00#8).setWidth 32 := by
  simp only [hostRead, hostTarget_txBuf h]

theorem hostRead_rxBuf {i : Nat} (h : i ≤ 255) :
    hostRead p b (BitVec.ofNat 12 (0x800 + 4 * i)) = (b.rx.getD i 0x00#8).setWidth 32 := by
  simp only [hostRead, hostTarget_rxBuf h]

theorem hostRead_resultBuf {i : Nat} (h : i ≤ 124) :
    hostRead p b (BitVec.ofNat 12 (0xC00 + 4 * i)) = (b.result.getD i 0x0000#16).setWidth 32 := by
  simp only [hostRead, hostTarget_resultBuf h]

end HostRead

/-- A window's word as 20_memory.md R54 says it: the element, and 0 past the length. -/
theorem setWidth_getD_eq_dite {w : Nat} (l : List (BitVec w)) (i : Nat) :
    (l.getD i 0#w).setWidth 32 = if h : i < l.length then (l[i]).zeroExtend 32 else 0x00000000#32 := by
  split
  · rw [List.getD_eq_getElem _ _ ‹_›]
  · rw [List.getD_eq_default _ _ (not_lt.1 ‹_›), BitVec.setWidth_zero]

/-! ### What a write stores -/

/-- A register that is not RW ignores a write (20_memory.md R59). -/
theorem regStore_of_isRW_false {r : HostReg} (h : r.isRW = false) (data : Word) (b : Block) :
    regStore r data b = b := by
  cases r with
  | slave | addr | qty | value => cases h
  | cmd | status | crcAcc | txLen | rxLen | resultCount | excCode | config => rfl

/-- What a register keeps depends on the data alone, so the second of two equal writes changes nothing. -/
theorem regStore_regStore (r : HostReg) (data : Word) (b : Block) :
    regStore r data (regStore r data b) = regStore r data b := by
  cases r <;> rfl

theorem performEvent_write_regOffset {r : HostReg} (hr : r ≠ .cmd) (data : Word) (s : State) :
    performEvent (.write (regOffset r) data) s = .next (s.withBlock (regStore r data s.block)) := by
  change hostWriteAccess (regOffset r) data s = _
  obtain ⟨h, -⟩ | ⟨r', -, h, e⟩ | ⟨h, -⟩ := hostWriteAccess_cases (regOffset r) data s
  · rw [hostTarget_regOffset] at h
    exact absurd (HostTarget.reg.inj h) hr
  · rw [hostTarget_regOffset] at h
    rw [e, HostTarget.reg.inj h]
  · exact absurd (hostTarget_regOffset r) (h r)

/-- A write is ignored where the offset selects no RW register and not CMD (20_memory.md R58, R59). -/
theorem performEvent_write_ignored {off : Offset}
    (h : ∀ r, hostTarget off = .reg r → r ≠ .cmd ∧ r.isRW = false) (data : Word) (s : State) :
    performEvent (.write off data) s = .next s := by
  change hostWriteAccess off data s = _
  obtain ⟨hcmd, -⟩ | ⟨r, -, hr, e⟩ | ⟨-, e⟩ := hostWriteAccess_cases off data s
  · exact absurd rfl (h .cmd hcmd).1
  · rw [e, regStore_of_isRW_false (h r hr).2]
    rfl
  · exact e

/-! ### One transaction per step -/

theorem step_of_port_cons {s : State} {e : HostEvent} {rest : List HostEvent} (h : s.port = e :: rest) :
    step s = performEvent e (s.withPort rest) := by
  simp only [step, h]

/-- A transaction that is no read changes at most the block: it returns no value and leaves the port. -/
theorem performEvent_eq_withBlock {e : HostEvent} (h : ∀ off, e ≠ .read off) (s : State) :
    ∃ b, performEvent e s = .next (s.withBlock b) := by
  cases e with
  | read off => exact absurd rfl (h off)
  | write off data => exact hostWriteAccess_eq_withBlock off data s
  | reset => exact ⟨_, rfl⟩

/-! ### The statements -/

/-- Settles O11: the step is the oldest transaction on the state without it; a read appends one reply, and what is no
read changes the block alone. -/
theorem transactionsInOrder : Obligations.TransactionsInOrder := by
  intro s e rest hport
  have hstep := step_of_port_cons hport
  refine ⟨hstep, ?_⟩
  rw [hstep]
  by_cases hread : ∃ off, e = .read off
  · obtain ⟨off, rfl⟩ := hread
    exact ⟨_, [hostRead s.params s.block off], performEvent_read off _, rfl, rfl,
      fun _ h => by rw [HostEvent.read.inj h], fun h => absurd rfl (h off)⟩
  · have hne : ∀ off, e ≠ .read off := not_exists.1 hread
    obtain ⟨b, hb⟩ := performEvent_eq_withBlock hne (s.withPort rest)
    exact ⟨_, [], hb, rfl, (List.append_nil _).symm, fun off h => absurd h (hne off), fun _ => rfl⟩

/-- Settles O14: word `i` of a window selects element `i`, whose default past the length is 0. -/
theorem windowReads : Obligations.WindowReads := fun p b i =>
  ⟨fun h => (hostRead_txBuf p b h).trans (setWidth_getD_eq_dite b.tx i),
   fun h => (hostRead_rxBuf p b h).trans (setWidth_getD_eq_dite b.rx i),
   fun h => (hostRead_resultBuf p b h).trans (setWidth_getD_eq_dite b.result i)⟩

/-- Settles O18: a reserved offset selects no register and no window word, and the offsets of the second part select
neither CMD nor an RW register, so a write there is ignored. -/
theorem reservedAndReadOnly : Obligations.ReservedAndReadOnly := by
  intro s off data h4
  refine ⟨fun h => ⟨hostRead_of_reserved _ _ (hostTarget_reserved h4 h), performEvent_read_block off s⟩, fun h => ?_⟩
  refine performEvent_write_ignored (fun r hr => ?_) data s
  obtain rfl := hostTarget_eq_reg_iff.1 hr
  refine ⟨?_, isRW_false_of_regOffset h⟩
  rintro rfl
  exact absurd h (by decide)

/-- Settles O19: a write that is not at CMD's offset selects another register, and what it stores is at most an operand
register. -/
theorem onlyCmdWritesRunCommands : Obligations.OnlyCmdWritesRunCommands := by
  refine ⟨fun s => ⟨hostRead_regOffset s.params s.block .cmd, performEvent_read_block _ s⟩, fun s e hreset hcmd => ?_⟩
  cases e with
  | read off => exact ⟨_, performEvent_read off s, rfl⟩
  | reset => exact absurd rfl hreset
  | write off data =>
    obtain ⟨h, -⟩ | ⟨r, -, -, hw⟩ | ⟨-, hw⟩ := hostWriteAccess_cases off data s
    · have hoff : off = 0x000#12 := hostTarget_eq_reg_iff.1 h
      exact absurd (congrArg (HostEvent.write · data) hoff) (hcmd data)
    · obtain ⟨sl, ad, qt, va, hstore⟩ := regStore_eq r data s.block
      rw [hstore] at hw
      exact ⟨_, hw, rfl⟩
    · exact ⟨_, hw, rfl⟩

/-- Settles O20: a read changes the replies alone; a register keeps the same bits of the same data; TX_PUSH 0x00 written
to CMD twice after reset pushes two bytes. -/
theorem readsAndWritesIdempotent : Obligations.ReadsAndWritesIdempotent := by
  refine ⟨fun s off => ⟨_, performEvent_read off s, rfl, fun _ => rfl⟩, fun s off data hoff => ?_, ?_⟩
  · obtain ⟨r, hr, rfl⟩ := eq_regOffset_of_mem_rw hoff
    refine ⟨_, performEvent_write_regOffset hr data s, ?_⟩
    rw [performEvent_write_regOffset hr data, State_withBlock_block, regStore_regStore, State_withBlock_withBlock]
  · exact ⟨State.reset, State.reset.withBlock { Block.reset with tx := [0x00#8] },
      State.reset.withBlock { Block.reset with tx := [0x00#8, 0x00#8] }, 0x00000011#32, rfl, rfl, by decide⟩

/-- Settles O12: a read is one appended reply. -/
theorem readAccess : Obligations.ReadAccess := fun s off => performEvent_read off s

/-- Settles O13: each of the twelve offsets selects its register. -/
theorem registerMapReads : Obligations.RegisterMapReads := fun p b =>
  ⟨hostRead_regOffset p b .cmd, hostRead_regOffset p b .status, hostRead_regOffset p b .slave,
   hostRead_regOffset p b .addr, hostRead_regOffset p b .qty, hostRead_regOffset p b .value,
   hostRead_regOffset p b .crcAcc, hostRead_regOffset p b .txLen, hostRead_regOffset p b .rxLen,
   hostRead_regOffset p b .resultCount, hostRead_regOffset p b .excCode, hostRead_regOffset p b .config⟩

/-- Settles O17: a misaligned offset selects no register and no window word (20_memory.md R58). -/
theorem misalignedAccess : Obligations.MisalignedAccess := by
  intro s off data h
  have ht := hostTarget_misaligned h
  refine ⟨hostRead_of_misaligned _ _ ht, performEvent_read_block off s, performEvent_write_ignored ?_ data s⟩
  simp [ht]

end Sys2Proof.Machine

/-!
PROOFS. The command words (30_encoding.md R80 to R84): a command is its `OP` and `IMM8`, the decoder reads these two
fields back, and a word satisfies the match and mask of a row exactly when it decodes to a command of that row.
-/

namespace Sys2Proof

open Sys2Proof.Statements

/-! ### A command is its opcode and its operand -/

/-- The OP column of 30_encoding.md R83. -/
def Instr.op : Instr → Byte
  | .nop => 0x00#8
  | .crcInit => 0x01#8
  | .crcByte _ => 0x02#8
  | .txClear => 0x10#8
  | .txPush _ => 0x11#8
  | .txAppendCrc => 0x12#8
  | .buildRead => 0x20#8
  | .buildWrite => 0x21#8
  | .rxClear => 0x30#8
  | .rxPush _ => 0x31#8
  | .parseRead => 0x40#8
  | .parseWrite => 0x41#8

/-- `IMM8` of a command's word: the operand in format B, 0 in format N (30_encoding.md R81). -/
def Instr.imm : Instr → Byte
  | .crcByte b => b
  | .txPush b => b
  | .rxPush b => b
  | _ => 0x00#8

theorem encode_eq (i : Instr) : encode i = encodeFields i.op i.imm := by
  cases i <;> rfl

theorem imm_of_format_n {i : Instr} (h : i.format = .n) : i.imm = 0x00#8 := by
  cases i with
  | crcByte b | txPush b | rxPush b => cases h
  | nop | crcInit | txClear | txAppendCrc | buildRead | buildWrite | rxClear | parseRead | parseWrite => rfl

/-- A word is a pair of fields exactly when these are its `OP` and `IMM8` and its `RSV` is zero. -/
theorem eq_encodeFields_iff {w : Word} {op b : Byte} :
    w = encodeFields op b ↔ fieldRsv w = 0x0000#16 ∧ fieldOp w = op ∧ fieldImm8 w = b := by
  constructor
  · rintro rfl
    simp
  · rintro ⟨hrsv, rfl, rfl⟩
    exact (encodeFields_fields w hrsv).symm

/-! ### The decoder reads the fields back -/

theorem decodeFormatN_eq_instr {w : Word} {i j : Instr} :
    decodeFormatN w j = .instr i ↔ fieldImm8 w = 0x00#8 ∧ j = i := by
  unfold decodeFormatN
  split <;> simp_all

/-- The rows of the opcode map, read from the row to the fields. -/
theorem fields_of_decodeOp {w : Word} {i : Instr} (h : decodeOp w = .instr i) :
    fieldOp w = i.op ∧ fieldImm8 w = i.imm := by
  unfold decodeOp at h
  split at h
  case h_3 hop | h_5 hop | h_10 hop =>
    cases h
    exact ⟨BitVec.eq_of_toNat_eq hop, rfl⟩
  case h_13 => cases h
  all_goals
    rename_i hop
    obtain ⟨himm, rfl⟩ := decodeFormatN_eq_instr.1 h
    exact ⟨BitVec.eq_of_toNat_eq hop, himm⟩

theorem decodeOp_encode (i : Instr) : decodeOp (encode i) = .instr i := by
  cases i <;> simp [decodeOp, decodeFormatN, encode]

/-- A word decodes to a command exactly when its three fields are the command's (30_encoding.md R82). -/
theorem decode_eq_instr_iff {w : Word} {i : Instr} :
    decode w = .instr i ↔ fieldRsv w = 0x0000#16 ∧ fieldOp w = i.op ∧ fieldImm8 w = i.imm := by
  constructor
  · intro h
    unfold decode at h
    split at h
    · exact ⟨‹_›, fields_of_decodeOp h⟩
    · cases h
  · intro h
    obtain rfl : w = encode i := (eq_encodeFields_iff.2 h).trans (encode_eq i).symm
    have hrsv := h.1
    simp only [decode, hrsv, if_true, decodeOp_encode]

theorem decode_eq_instr_iff_encode {w : Word} {i : Instr} : decode w = .instr i ↔ encode i = w := by
  rw [decode_eq_instr_iff, ← eq_encodeFields_iff, ← encode_eq, eq_comm]

/-! ### The match/mask form of 30_encoding.md R82 -/

/-- The mask of a format: all 32 bits in format N, all but `IMM8` in format B (30_encoding.md R82). -/
def Format.mask : Format → Word
  | .n => 0xFFFFFFFF#32
  | .b => 0xFFFF00FF#32

/-- The row of a command in `opcodeRows`. -/
def Instr.row (i : Instr) : String × Word × Word := (i.mnemonic, encodeFields i.op 0x00#8, i.format.mask)

/-- The rows are those of the twelve commands, whatever the operand. -/
theorem mem_opcodeRows {row : String × Word × Word} : row ∈ opcodeRows ↔ ∃ i : Instr, i.row = row := by
  constructor
  · intro h
    have hrows : opcodeRows = [Instr.nop, .crcInit, .crcByte 0x00#8, .txClear, .txPush 0x00#8, .txAppendCrc, .buildRead,
      .buildWrite, .rxClear, .rxPush 0x00#8, .parseRead, .parseWrite].map Instr.row := by decide
    rw [hrows] at h
    obtain ⟨i, -, hi⟩ := List.mem_map.1 h
    exact ⟨i, hi⟩
  · rintro ⟨i, rfl⟩
    cases i <;> simp [opcodeRows, Instr.row, Instr.mnemonic, Instr.op, Instr.format, Format.mask, encodeFields]

theorem mask_n_iff {f : Format} : f.mask = 0xFFFFFFFF#32 ↔ f = .n := by
  cases f <;> decide

/-- Masking out `IMM8` keeps the other two fields. -/
theorem and_mask_b_eq_iff {w : Word} {op : Byte} :
    w &&& Format.b.mask = encodeFields op 0x00#8 ↔ fieldRsv w = 0x0000#16 ∧ fieldOp w = op := by
  have hrsv : fieldRsv (w &&& Format.b.mask) = fieldRsv w := by
    rw [fieldRsv, BitVec.extractLsb'_and]
    exact BitVec.and_allOnes
  have hop : fieldOp (w &&& Format.b.mask) = fieldOp w := by
    rw [fieldOp, BitVec.extractLsb'_and]
    exact BitVec.and_allOnes
  have himm : fieldImm8 (w &&& Format.b.mask) = 0x00#8 := by
    rw [fieldImm8, BitVec.extractLsb'_and]
    exact BitVec.and_zero
  rw [eq_encodeFields_iff, hrsv, hop]
  simp only [himm, and_true]

/-- A word satisfies a row exactly under the three conditions of 30_encoding.md R82. -/
theorem and_mask_eq_iff {w : Word} {op : Byte} (f : Format) :
    w &&& f.mask = encodeFields op 0x00#8 ↔
      fieldRsv w = 0x0000#16 ∧ fieldOp w = op ∧ (f = .n → fieldImm8 w = 0x00#8) := by
  cases f with
  | n =>
    have hall : w &&& Format.n.mask = w := BitVec.and_allOnes
    rw [hall, eq_encodeFields_iff]
    simp
  | b =>
    rw [and_mask_b_eq_iff]
    simp

/-- Every `IMM8` that the format of a row admits is that of a command in the same row. -/
theorem exists_same_row_with_imm {i : Instr} {b : Byte} (h : i.format = .n → b = 0x00#8) :
    ∃ j : Instr, j.row = i.row ∧ j.op = i.op ∧ j.imm = b := by
  cases i with
  | crcByte _ => exact ⟨.crcByte b, rfl, rfl, rfl⟩
  | txPush _ => exact ⟨.txPush b, rfl, rfl, rfl⟩
  | rxPush _ => exact ⟨.rxPush b, rfl, rfl, rfl⟩
  | nop | crcInit | txClear | txAppendCrc | buildRead | buildWrite | rxClear | parseRead | parseWrite =>
    exact ⟨_, rfl, rfl, (h rfl).symm⟩

theorem matches_row_of_decode {w : Word} {i : Instr} (h : decode w = .instr i) : w &&& i.row.2.2 = i.row.2.1 := by
  obtain ⟨hrsv, hop, himm⟩ := decode_eq_instr_iff.1 h
  exact (and_mask_eq_iff i.format).2 ⟨hrsv, hop, fun hn => himm.trans (imm_of_format_n hn)⟩

/-- A word that satisfies a row decodes to a command of that row. -/
theorem decode_of_matches_row {w : Word} {row : String × Word × Word} (hrow : row ∈ opcodeRows)
    (h : w &&& row.2.2 = row.2.1) : ∃ i : Instr, i.row = row ∧ decode w = .instr i := by
  obtain ⟨i, rfl⟩ := mem_opcodeRows.1 hrow
  obtain ⟨hrsv, hop, himm⟩ := (and_mask_eq_iff i.format).1 h
  obtain ⟨j, hj, hjop, hjimm⟩ := exists_same_row_with_imm himm
  exact ⟨j, hj, decode_eq_instr_iff.2 ⟨hrsv, hop.trans hjop.symm, hjimm.symm⟩⟩

theorem legal_iff_matches_row {w : Word} :
    (∃ i, decode w = .instr i) ↔ ∃ row ∈ opcodeRows, w &&& row.2.2 = row.2.1 := by
  constructor
  · rintro ⟨i, h⟩
    exact ⟨i.row, mem_opcodeRows.2 ⟨i, rfl⟩, matches_row_of_decode h⟩
  · rintro ⟨row, hrow, h⟩
    obtain ⟨i, -, hi⟩ := decode_of_matches_row hrow h
    exact ⟨i, hi⟩

/-- A row's match and mask say the three conditions of 30_encoding.md R82 on the row's own `OP` and format. -/
theorem matches_row_iff_fields {w : Word} {row : String × Word × Word} (hrow : row ∈ opcodeRows) :
    w &&& row.2.2 = row.2.1 ↔ fieldRsv w = 0x0000#16 ∧ fieldOp w = fieldOp row.2.1 ∧
      (row.2.2 = 0xFFFFFFFF#32 → fieldImm8 w = 0x00#8) := by
  obtain ⟨i, rfl⟩ := mem_opcodeRows.1 hrow
  simp only [Instr.row, and_mask_eq_iff, fieldOp_encodeFields, mask_n_iff]

/-- No word satisfies two rows: it decodes to one command, whose row both are. -/
theorem matches_row_unique {w : Word} {row row' : String × Word × Word} (hrow : row ∈ opcodeRows)
    (hrow' : row' ∈ opcodeRows) (h : w &&& row.2.2 = row.2.1) (h' : w &&& row'.2.2 = row'.2.1) : row = row' := by
  obtain ⟨i, rfl, hi⟩ := decode_of_matches_row hrow h
  obtain ⟨j, rfl, hj⟩ := decode_of_matches_row hrow' h'
  rw [Decoded.instr.inj (hi.symm.trans hj)]

end Sys2Proof

namespace Sys2Proof.Machine

open Sys2Proof.Statements

/-! ### What a word written to CMD runs -/

theorem performEvent_write_cmd_of_legal {w : Word} {i : Instr} (h : decode w = .instr i) (s : State) :
    performEvent (.write 0x000#12 w) s = exec i s := by
  change runCommandWord w s = _
  simp only [runCommandWord, h]

theorem performEvent_write_cmd_of_illegal {w : Word} (h : ∀ i, decode w ≠ .instr i) (s : State) :
    performEvent (.write 0x000#12 w) s = .next (s.withBlock (raiseErr .illegalCmd s.block)) := by
  change runCommandWord w s = _
  unfold runCommandWord
  split
  · exact absurd ‹_› (h _)
  · rfl

/-! ### The statements -/

/-- Settles O1: a word decodes to a command exactly when its three fields are those of the command's encoding. -/
theorem decodeIffEncode : Obligations.DecodeIffEncode :=
  fun _ _ => decode_eq_instr_iff_encode

/-- Settles O2: a word satisfies a row exactly when it decodes to a command of that row, so the decoder's answer carries
legality, uniqueness and the effect. -/
theorem commandDecodingRule : Obligations.CommandDecodingRule := by
  intro w
  refine ⟨?_, legal_iff_matches_row, fun row hrow row' hrow' h h' => matches_row_unique hrow hrow' h h',
    fun row hrow h => ?_, fun hnone s => ?_⟩
  · rw [legal_iff_matches_row]
    constructor
    · rintro ⟨row, hrow, h⟩
      obtain ⟨hrsv, hop, himm⟩ := (matches_row_iff_fields hrow).1 h
      exact ⟨hrsv, row, hrow, hop, himm⟩
    · rintro ⟨hrsv, row, hrow, hop, himm⟩
      exact ⟨row, hrow, (matches_row_iff_fields hrow).2 ⟨hrsv, hop, himm⟩⟩
  · obtain ⟨i, rfl, hi⟩ := decode_of_matches_row hrow h
    exact ⟨i, hi, rfl, performEvent_write_cmd_of_legal hi⟩
  · refine performEvent_write_cmd_of_illegal (fun i hi => ?_) s
    exact hnone i.row (mem_opcodeRows.2 ⟨i, rfl⟩) (matches_row_of_decode hi)

/-- Settles O3: each word is the encoding of its command. -/
theorem opcodeMapWords : Obligations.OpcodeMapWords := by
  unfold Obligations.OpcodeMapWords
  simp only [decode_eq_instr_iff_encode]
  decide

/-- Settles O4: the step performs the write, and the write to CMD runs the decoded command. -/
theorem stepRunsDecodedCommand : Obligations.StepRunsDecodedCommand := fun _ _ _ _ hport hdec =>
  (step_of_port_cons hport).trans (performEvent_write_cmd_of_legal hdec _)

end Sys2Proof.Machine

/-!
PROOFS. What the two parse commands accept (30_encoding.md R88, R89; 42_decoder.md R161 to R163): a response passes the
shared stages exactly when it is a frame of the expected length that begins with the slave and the function code; the
register values of a response and the bytes that carry them determine each other.
-/

namespace Sys2Proof.Machine

open Sys2Proof.Statements

/-! ### Frames -/

theorem framed_length (p : List Byte) : (framed p).length = p.length + 2 := appendCrc_length p

/-- A byte of the payload stands in the frame at its own index. -/
theorem byteAt_framed {p : List Byte} {i : Nat} (h : i < p.length) : byteAt (framed p) i = byteAt p i :=
  List.getD_append _ _ _ _ h

theorem request_eq_framed (slave fc : Byte) (f1 f2 : Half) :
    request slave fc f1 f2 = framed [slave, fc, hi f1, lo f1, hi f2, lo f2] := rfl

/-- The code of a verdict is 0 for OK alone (60_exceptions.md R201). -/
theorem code_eq_zero_iff {v : StatusCode} : v.code = 0x00#8 ↔ v = .ok :=
  ⟨fun h => code_inj h, fun h => h ▸ rfl⟩

/-- Without the exception bit there is no short exception frame (42_decoder.md R164). -/
theorem shortExc_eq_false {p : Params} {rx : List Byte} (h : excBit rx = false) : shortExc p rx = false := by
  simp [shortExc, h]

/-- The shared stages accept exactly the frames of the expected length that begin with the slave and the function code,
when the function code has no exception bit (42_decoder.md R152). -/
theorem frameVerdict_ok_iff_framed {p : Params} {e : Nat} {fc slave : Byte} {rx : List Byte} (he : 4 ≤ e)
    (hfc : fc.getLsbD 7 = false) :
    frameVerdict p e fc slave rx = .ok ↔ ∃ data, rx = framed (slave :: fc :: data) ∧ data.length + 4 = e := by
  rw [frameVerdict_ok_iff]
  constructor
  · rintro ⟨-, hcrc, hlen, hslave, hexc, hfn⟩
    have hlen : rx.length = e := by
      by_contra hne
      rw [lengthBad_iff.2 ⟨hne, shortExc_eq_false hexc⟩] at hlen
      cases hlen
    obtain ⟨q, rfl⟩ := (crcBad_eq_false_iff (by omega)).1 hcrc
    rw [appendCrc_length] at hlen
    match q with
    | [] | [_] =>
      simp only [List.length_cons, List.length_nil] at hlen
      omega
    | a :: f :: data =>
      obtain rfl : a = slave := hslave
      obtain rfl : f = fc := hfn
      exact ⟨data, rfl, hlen⟩
  · rintro ⟨data, rfl, hlen⟩
    have hlen : (framed (slave :: fc :: data)).length = e := by
      rw [framed_length]
      exact hlen
    refine ⟨?_, (crcBad_eq_false_iff (by omega)).2 ⟨_, rfl⟩, ?_, rfl, hfc, rfl⟩
    · simp [shortRead, hlen]
    · simp [lengthBad, hlen]

/-! ### PARSE_WRITE -/

theorem writeVerdict_ok_iff {p : Params} {b : Block} :
    writeVerdict p b = .ok ↔ ∃ rh rl vh vl : Byte, b.rx = framed [b.slave, 0x06#8, rh, rl, vh, vl] := by
  rw [writeVerdict, frameVerdict_ok_iff_framed (by decide) (by decide)]
  constructor
  · rintro ⟨data, hrx, hlen⟩
    obtain ⟨rh, rl, vh, vl, rfl⟩ := List.length_eq_four.1 (Nat.add_right_cancel hlen : data.length = 4)
    exact ⟨rh, rl, vh, vl, hrx⟩
  · rintro ⟨rh, rl, vh, vl, hrx⟩
    exact ⟨[rh, rl, vh, vl], hrx, rfl⟩

/-! ### The register values of a read response -/

/-- Register values as they stand in a response, each high byte first (30_encoding.md R88). -/
def wordBytes (ws : List Half) : List Byte := ws.flatMap fun w => [hi w, lo w]

theorem wordBytes_cons (w : Half) (ws : List Half) : wordBytes (w :: ws) = hi w :: lo w :: wordBytes ws := rfl

theorem wordBytes_length (ws : List Half) : (wordBytes ws).length = 2 * ws.length := by
  induction ws with
  | nil => rfl
  | cons w ws ih => simp only [wordBytes_cons, List.length_cons, ih]; omega

/-- Bytes in pairs are register values. -/
theorem exists_wordBytes {q : Nat} {data : List Byte} (h : data.length = 2 * q) :
    ∃ ws, ws.length = q ∧ data = wordBytes ws := by
  induction q generalizing data with
  | zero => exact ⟨[], rfl, List.length_eq_zero_iff.1 h⟩
  | succ q ih =>
    match data with
    | [] | [_] =>
      simp only [List.length_cons, List.length_nil] at h
      omega
    | a :: b :: data =>
      have hdata : data.length = 2 * q := by
        simp only [List.length_cons] at h
        omega
      obtain ⟨ws, hws, rfl⟩ := ih hdata
      exact ⟨half a b :: ws, by rw [List.length_cons, hws], by rw [wordBytes_cons, hi_half, lo_half]⟩

/-- The two bytes of each value, joined again (42_decoder.md R161). -/
theorem half_byteAt_wordBytes {ws : List Half} {i : Nat} (h : i < ws.length) :
    half (byteAt (wordBytes ws) (2 * i)) (byteAt (wordBytes ws) (2 * i + 1)) = ws[i] := by
  induction ws generalizing i with
  | nil => cases h
  | cons w ws ih =>
    cases i with
    | zero => exact half_hi_lo w
    | succ i => exact ih (Nat.lt_of_succ_lt_succ h)

theorem readResponse_eq (slave : Byte) (ws : List Half) :
    readResponse slave ws = framed (slave :: 0x03#8 :: BitVec.ofNat 8 (2 * ws.length) :: wordBytes ws) := rfl

/-- Past the slave, the function code and the byte count stand the register values. -/
theorem byteAt_readResponse {slave : Byte} {ws : List Half} {i : Nat} (h : i < 2 * ws.length) :
    byteAt (readResponse slave ws) (i + 3) = byteAt (wordBytes ws) i := by
  rw [readResponse_eq, byteAt_framed]
  · rfl
  · simp only [List.length_cons, wordBytes_length]
    omega

theorem decodeWords_readResponse (slave : Byte) (ws : List Half) :
    decodeWords (readResponse slave ws) ws.length = ws := by
  refine List.ext_getElem (decodeWords_length _ _) fun i _ h => ?_
  have h0 := byteAt_readResponse (slave := slave) (show 2 * i < 2 * ws.length by omega)
  have h1 := byteAt_readResponse (slave := slave) (show 2 * i + 1 < 2 * ws.length by omega)
  simp only [decodeWords, List.getElem_map, List.getElem_range]
  rw [Nat.add_comm 3, show 4 + 2 * i = 2 * i + 1 + 3 by omega, h0, h1, half_byteAt_wordBytes h]

/-! ### PARSE_READ -/

/-- The byte count of a valid quantity fits in its byte (42_decoder.md R160). -/
theorem byteCount_toNat {q : Nat} (h : q ≤ 125) : (BitVec.ofNat 8 (2 * q)).toNat = 2 * q := by
  rw [BitVec.toNat_ofNat]
  exact Nat.mod_eq_of_lt (by omega)

theorem readVerdict_ok_iff_readResponse {p : Params} {b : Block} :
    readVerdict p b = .ok ↔ 1 ≤ b.qty.toNat ∧ b.qty.toNat ≤ 125 ∧
      ∃ ws : List Half, ws.length = b.qty.toNat ∧ b.rx = readResponse b.slave ws := by
  rw [readVerdict_ok_iff, frameVerdict_ok_iff_framed (by rw [readRespLen]; omega) (by decide), qtyOk_iff, and_assoc]
  refine and_congr_right fun _ => and_congr_right fun hmax => ?_
  constructor
  · rintro ⟨⟨data, hrx, hlen⟩, hcount⟩
    rw [readRespLen] at hlen
    match data with
    | [] =>
      rw [List.length_nil] at hlen
      omega
    | c :: data =>
      have hdata : data.length = 2 * b.qty.toNat := by
        rw [List.length_cons] at hlen
        omega
      obtain ⟨ws, hws, rfl⟩ := exists_wordBytes hdata
      have hc : c = BitVec.ofNat 8 (2 * ws.length) := by
        apply BitVec.eq_of_toNat_eq
        rw [hws, byteCount_toNat hmax, ← hcount, hrx]
        rfl
      exact ⟨ws, hws, by rw [hrx, hc, readResponse_eq]; rfl⟩
  · rintro ⟨ws, hws, hrx⟩
    refine ⟨⟨BitVec.ofNat 8 (2 * ws.length) :: wordBytes ws, hrx, ?_⟩, ?_⟩
    · rw [List.length_cons, wordBytes_length, hws, readRespLen]
      omega
    · rw [hrx, ← hws]
      exact byteCount_toNat (hws ▸ hmax)

/-! ### The statements -/

/-- Settles O41: the stages accept exactly the normal response, and the decoder reads its register values back. -/
theorem parseReadAcceptsExactly : Obligations.ParseReadAcceptsExactly := by
  intro s
  refine ⟨_, exec_parseRead s, code_eq_zero_iff.trans readVerdict_ok_iff_readResponse, fun ws hmin hmax hlen hrx => ?_⟩
  have hok : readVerdict s.params s.block = .ok :=
    readVerdict_ok_iff_readResponse.2 ⟨hlen ▸ hmin, hlen ▸ hmax, ws, hlen, hrx⟩
  refine ⟨code_eq_zero_iff.2 hok, ?_⟩
  rw [State_withBlock_block, finishParse_result, if_pos hok, hrx, ← hlen, decodeWords_readResponse]

/-- Settles O42: the shared stages with function 0x06 and 8 bytes accept exactly the frames with four free bytes. -/
theorem parseWriteAcceptsExactly : Obligations.ParseWriteAcceptsExactly := fun s =>
  ⟨_, exec_parseWrite s, code_eq_zero_iff.trans writeVerdict_ok_iff⟩

/-- Settles O54: the request that BUILD_WRITE builds is such a frame, of the slave that PARSE_WRITE still reads. -/
theorem writeEchoAccepted : Obligations.WriteEchoAccepted := fun s =>
  ⟨_, _, exec_buildWrite s, exec_parseWrite _, code_eq_zero_iff.2 (writeVerdict_ok_iff.2 ⟨_, _, _, _, rfl⟩)⟩

end Sys2Proof.Machine

/-!
PROOFS. The pseudo-instructions of 30_encoding.md R92 as runs: a statement at the port is one step, and a run of pushes
is one induction over the bytes, whatever buffer or accumulator the pushes fill.
-/

namespace Sys2Proof.Machine

open Sys2Proof.Statements

/-! ### Statements at the port -/

theorem reaches_zero (s : State) : Reaches 0 s s := rfl

theorem run_succ_of_step {M : Host.Core} {k : Nat} {s t : M.State} (h : M.step s = .next t) :
    M.run (k + 1) s = M.run k t := by
  simp only [Host.Core.run, h]

/-- The first step of a run, and the run from there. -/
theorem reaches_succ {k : Nat} {s t u : State} (h : step s = .next t) (hu : Reaches k t u) : Reaches (k + 1) s u :=
  (run_succ_of_step (M := core) h).trans hu

/-- A command statement at the port runs its command (30_encoding.md R91). -/
theorem step_command {s : State} {i : Instr} {rest : List HostEvent} (h : s.port = asmEvent (.command i) :: rest) :
    step s = exec i (s.withPort rest) :=
  stepRunsDecodedCommand s rest (encode i) i h (decode_eq_instr_iff_encode.2 rfl)

/-- A `WR` statement at the port stores its register (30_encoding.md R91). -/
theorem step_wr {s : State} {r : HostReg} {v : Word} {rest : List HostEvent} (hr : r ≠ .cmd)
    (h : s.port = asmEvent (.wr r v) :: rest) :
    step s = .next ((s.withPort rest).withBlock (regStore r v s.block)) :=
  (step_of_port_cons h).trans (performEvent_write_regOffset hr v _)

/-! ### Runs of pushes -/

/-- A run of pushes: `push` takes the block from `load pre` to `load (pre ++ [b])` while fewer than `n` bytes are
loaded. -/
theorem reaches_pushes {push : Byte → Instr} {load : List Byte → Block} {n : Nat}
    (hpush : ∀ (s : State) (pre : List Byte) (b : Byte), pre.length < n → s.block = load pre →
      exec (push b) s = .next (s.withBlock (load (pre ++ [b]))))
    {bytes pre : List Byte} {s : State} {rest : List HostEvent} (hn : pre.length + bytes.length ≤ n)
    (hport : s.port = asmEvents (bytes.map fun b => .command (push b)) ++ rest) (hblock : s.block = load pre) :
    Reaches bytes.length s ((s.withPort rest).withBlock (load (pre ++ bytes))) := by
  induction bytes generalizing pre s with
  | nil =>
    have hs : (s.withPort rest).withBlock (load (pre ++ [])) = s := by
      rw [List.append_nil, ← hblock, ← (show s.port = rest from hport)]
      rfl
    rw [hs]
    exact reaches_zero s
  | cons b bytes ih =>
    rw [List.length_cons] at hn
    have hstep := (step_command hport).trans (hpush _ pre b (by omega) hblock)
    have hrun := ih (pre := pre ++ [b]) (s := (s.withPort _).withBlock (load (pre ++ [b])))
      (by rw [List.length_append, List.length_singleton]; omega) rfl rfl
    rw [List.append_assoc] at hrun
    exact reaches_succ hstep hrun

/-- A command that empties the target and the pushes after it: the form of CRC16, TXFRAME and RXFRAME
(30_encoding.md R92). -/
theorem reaches_clear_pushes {clear : Instr} {push : Byte → Instr} {load : List Byte → Block} {n : Nat}
    {bytes : List Byte} {s : State} {rest : List HostEvent}
    (hclear : ∀ t : State, t.block = s.block → exec clear t = .next (t.withBlock (load [])))
    (hpush : ∀ (t : State) (pre : List Byte) (b : Byte), pre.length < n → t.block = load pre →
      exec (push b) t = .next (t.withBlock (load (pre ++ [b]))))
    (hn : bytes.length ≤ n)
    (hport : s.port = asmEvents (.command clear :: bytes.map fun b => .command (push b)) ++ rest) :
    Reaches (bytes.length + 1) s ((s.withPort rest).withBlock (load bytes)) := by
  have hstep := (step_command hport).trans (hclear _ rfl)
  have hn' : ([] : List Byte).length + bytes.length ≤ n := by simpa using hn
  exact reaches_succ hstep (reaches_pushes hpush hn' rfl rfl)

theorem reaches_crc16 {s : State} {bytes : List Byte} {rest : List HostEvent}
    (hport : s.port = asmEvents (expand (.crc16 bytes)) ++ rest) :
    Reaches (bytes.length + 1) s
      ((s.withPort rest).withBlock (finishOk { s.block with crcAcc := crc16 bytes })) := by
  refine reaches_clear_pushes (load := fun l => finishOk { s.block with crcAcc := crc16 l })
    (fun t ht => ?_) (fun t pre b _ ht => ?_) le_rfl hport
  · rw [exec_crcInit, ht]
    rfl
  · rw [exec_crcByte, ht, crc16_snoc]
    rfl

theorem reaches_txFrame {s : State} {bytes : List Byte} {rest : List HostEvent} (hlen : bytes.length ≤ 256)
    (hport : s.port = asmEvents (expand (.txFrame bytes)) ++ rest) :
    Reaches (bytes.length + 1) s ((s.withPort rest).withBlock (finishOk { s.block with tx := bytes })) := by
  refine reaches_clear_pushes (load := fun l => finishOk { s.block with tx := l })
    (fun t ht => ?_) (fun t pre b hpre ht => ?_) hlen hport
  · rw [exec_txClear, ht]
  · have htx : t.block.tx = pre := by rw [ht]; rfl
    rw [exec_txPush_of_room b (by rw [htx]; omega), htx, ht]
    rfl

theorem reaches_rxFrame {s : State} {bytes : List Byte} {rest : List HostEvent} (hlen : bytes.length ≤ 256)
    (hport : s.port = asmEvents (expand (.rxFrame bytes)) ++ rest) :
    Reaches (bytes.length + 1) s ((s.withPort rest).withBlock (finishOk { s.block with rx := bytes })) := by
  refine reaches_clear_pushes (load := fun l => finishOk { s.block with rx := l })
    (fun t ht => ?_) (fun t pre b hpre ht => ?_) hlen hport
  · rw [exec_rxClear, ht]
  · have hrx : t.block.rx = pre := by rw [ht]; rfl
    rw [exec_rxPush_of_room b (by rw [hrx]; omega), hrx, ht]
    rfl

/-! ### Requests -/

/-- The two bytes of a register's low half are the word's own (20_memory.md R57). -/
theorem hi_extractLsb' (w : Word) : hi (w.extractLsb' 0 16) = w.extractLsb' 8 8 :=
  BitVec.extractLsb'_extractLsb'_of_le (by decide)

theorem lo_extractLsb' (w : Word) : lo (w.extractLsb' 0 16) = w.extractLsb' 0 8 :=
  BitVec.extractLsb'_extractLsb'_of_le (by decide)

/-- The frame of a request whose fields are the low halves of two words (41_encoder.md R123). -/
theorem request_low_halves (slave fc : Byte) (a q : Word) :
    request slave fc (a.extractLsb' 0 16) (q.extractLsb' 0 16) =
      framed [slave, fc, a.extractLsb' 8 8, a.extractLsb' 0 8, q.extractLsb' 8 8, q.extractLsb' 0 8] := by
  rw [request_eq_framed, hi_extractLsb', lo_extractLsb', hi_extractLsb', lo_extractLsb']

/-- `QTY` of a `WR` is the argument modulo 2^16 (20_memory.md R57, 41_encoder.md R125). -/
theorem qtyOk_extractLsb' {q : Word} (hmin : 1 ≤ q.toNat % 2 ^ 16) (hmax : q.toNat % 2 ^ 16 ≤ 125) :
    qtyOk (q.extractLsb' 0 16) = true := by
  rw [qtyOk_iff, BitVec.extractLsb'_toNat, Nat.shiftRight_zero]
  exact ⟨hmin, hmax⟩

/-- Three register writes and a command: the form of READREQ and WRITEREQ (30_encoding.md R92). -/
theorem reaches_three_wr_command {s t : State} {r₁ r₂ r₃ : HostReg} {v₁ v₂ v₃ : Word} {i : Instr}
    {rest : List HostEvent} (h₁ : r₁ ≠ .cmd) (h₂ : r₂ ≠ .cmd) (h₃ : r₃ ≠ .cmd)
    (hport : s.port = asmEvents [.wr r₁ v₁, .wr r₂ v₂, .wr r₃ v₃, .command i] ++ rest)
    (hexec : exec i ((s.withPort rest).withBlock (regStore r₃ v₃ (regStore r₂ v₂ (regStore r₁ v₁ s.block)))) =
      .next t) : Reaches 4 s t :=
  reaches_succ (step_wr h₁ hport) <| reaches_succ (step_wr h₂ rfl) <| reaches_succ (step_wr h₃ rfl) <|
    reaches_succ ((step_command rfl).trans hexec) (reaches_zero t)

/-! ### The statements -/

/-- Settles O55: each is a command that empties its target and a run of pushes that fills it. -/
theorem framePseudoInstructions : Obligations.FramePseudoInstructions := fun _ _ _ =>
  ⟨reaches_crc16, reaches_txFrame, reaches_rxFrame⟩

/-- Settles O56: three register writes, then BUILD_READ with a valid quantity or BUILD_WRITE. -/
theorem requestPseudoInstructions : Obligations.RequestPseudoInstructions := by
  intro s sl a q rest
  constructor
  · intro hport hmin hmax
    refine reaches_three_wr_command (by decide) (by decide) (by decide) hport ?_
    rw [exec_buildRead_of_qtyOk (qtyOk_extractLsb' hmin hmax), ← request_low_halves]
    rfl
  · intro hport
    refine reaches_three_wr_command (by decide) (by decide) (by decide) hport ?_
    rw [exec_buildWrite, ← request_low_halves]
    rfl

end Sys2Proof.Machine

/-!
PROOFS. The CRC family (40_crc.md R100 to R107): the byte step loses nothing in the accumulator nor in the byte, so two
sequences that differ in one byte have different CRCs; a sequence followed by its own CRC has the CRC 0.
-/

namespace Sys2Proof.Machine

open Sys2Proof.Statements

/-! ### The byte step -/

theorem crcShifts_eq_iterate (n : Nat) (a : Half) : crcShifts n a = crcShift^[n] a := by
  induction n generalizing a with
  | zero => rfl
  | succ n ih => exact ih (crcShift a)

theorem crcStep_injective_acc (b : Byte) : Function.Injective fun acc : Half => crcStep acc b :=
  fun _ _ h => (BitVec.xor_left_inj _).1 (crcShifts_injective 8 h)

theorem crcStep_injective_byte (acc : Half) : Function.Injective fun b : Byte => crcStep acc b := by
  intro b b' h
  have hw : b.setWidth 16 = b'.setWidth 16 := (BitVec.xor_right_inj _).1 (crcShifts_injective 8 h)
  simpa using congrArg (BitVec.setWidth 8) hw

/-! ### The residue -/

/-- The shift step XORs nothing in when the bit shifted out is 0. -/
theorem crcShift_of_bit_zero {a : Half} (h : a.getLsbD 0 = false) : crcShift a = a >>> 1 := by
  simp only [crcShift, h, Bool.false_eq_true, if_false]

/-- While only 0 bits are shifted out, the shift steps are a plain shift. -/
theorem crcShifts_of_low_bits_zero {n : Nat} {a : Half} (h : ∀ i < n, a.getLsbD i = false) :
    crcShifts n a = a >>> n := by
  induction n generalizing a with
  | zero => rfl
  | succ n ih =>
    have hlow : ∀ i < n, (a >>> 1).getLsbD i = false := by
      intro i hi
      rw [BitVec.getLsbD_ushiftRight]
      exact h (1 + i) (by omega)
    rw [crcShifts, crcShift_of_bit_zero (h 0 (by omega)), ih hlow, Nat.add_comm, BitVec.shiftRight_add]

/-- Feeding the accumulator its own low byte cancels it and leaves the high byte. -/
theorem crcStep_lo (c : Half) : crcStep c (lo c) = (hi c).setWidth 16 := by
  have hlow : ∀ i < 8, (c ^^^ (lo c).setWidth 16).getLsbD i = false := by
    intro i h8
    have h16 : i < 16 := by omega
    simp [lo, h8, h16]
  rw [crcStep, crcShifts_of_low_bits_zero hlow]
  ext i h16
  have h8 : c.getLsbD (8 + i) = true → i < 8 := by
    intro h
    have := BitVec.lt_of_getLsbD h
    omega
  simpa [lo, hi] using h8

theorem crcStep_own_byte (b : Byte) : crcStep (b.setWidth 16) b = 0x0000#16 := by
  rw [crcStep, BitVec.xor_self]
  rfl

theorem crcStep_lo_hi (c : Half) : crcStep (crcStep c (lo c)) (hi c) = 0x0000#16 := by
  rw [crcStep_lo, crcStep_own_byte]

theorem crc16_framed (p : List Byte) : crc16 (framed p) = 0x0000#16 := by
  rw [framed, List.append_cons, crc16_snoc, crc16_snoc]
  exact crcStep_lo_hi _

/-! ### One changed byte -/

theorem foldl_crcStep_injective (s : List Byte) : Function.Injective fun acc : Half => s.foldl crcStep acc := by
  induction s with
  | nil => exact fun _ _ h => h
  | cons b s ih => exact ih.comp (crcStep_injective_acc b)

/-- Replacing one byte by another changes the fold, from every accumulator. -/
theorem foldl_crcStep_set_ne {s : List Byte} {j : Nat} {b : Byte} (acc : Half) (hj : j < s.length) (hb : b ≠ s[j]) :
    (s.set j b).foldl crcStep acc ≠ s.foldl crcStep acc := by
  induction s generalizing acc j with
  | nil => cases hj
  | cons x s ih =>
    cases j with
    | zero => exact fun h => hb (crcStep_injective_byte acc (foldl_crcStep_injective s h))
    | succ j => exact ih (crcStep acc x) (Nat.lt_of_succ_lt_succ hj) hb

theorem flipBit_length (f : List Byte) (j k : Nat) : (flipBit f j k).length = f.length := List.length_set

theorem crc16_flipBit_ne {f : List Byte} {j k : Nat} (hj : j < f.length) (hk : k < 8) :
    crc16 (flipBit f j k) ≠ crc16 f := by
  refine foldl_crcStep_set_ne Config.crcSeed hj fun h => ?_
  have hbit := congrArg (·.getLsbD k) h
  simp [hj, hk] at hbit

/-- A frame that carries a valid CRC fails stage (a) with any one bit flipped (42_decoder.md R154). -/
theorem crcBad_flipBit {f : List Byte} {j k : Nat} (hf : CrcValid f) (hj : j < f.length) (hk : k < 8) :
    crcBad (flipBit f j k) = true := by
  obtain ⟨p, rfl⟩ := hf
  have hlen : 2 ≤ (flipBit (framed p) j k).length := by
    rw [flipBit_length, framed_length]
    omega
  by_contra hbad
  obtain ⟨q, hq⟩ := (crcBad_eq_false_iff hlen).1 (Bool.eq_false_of_not_eq_true hbad)
  refine crc16_flipBit_ne hj hk ?_
  rw [hq, crc16_framed]
  exact crc16_framed q

/-- At the expected length stage S passes, so stage (a) decides (42_decoder.md R152 to R154). -/
theorem frameVerdict_eq_crc {p : Params} {e : Nat} {fc slave : Byte} {rx : List Byte} (hlen : rx.length = e)
    (hcrc : crcBad rx = true) : frameVerdict p e fc slave rx = .crc := by
  have hshort : shortRead p e rx = false := by simp [shortRead, hlen]
  simp only [frameVerdict, hshort, hcrc, Bool.false_eq_true, if_false, if_true]

theorem readVerdict_eq_crc {p : Params} {b : Block} (hq : qtyOk b.qty = true)
    (hlen : b.rx.length = 5 + 2 * b.qty.toNat) (hcrc : crcBad b.rx = true) : readVerdict p b = .crc := by
  have hframe : frameVerdict p (readRespLen b.qty) Config.fcRead b.slave b.rx = .crc := frameVerdict_eq_crc hlen hcrc
  simp only [readVerdict, hq, if_true, hframe, byteCountVerdict]

theorem crc16_frameBody_appendCrc (q : List Byte) : crc16 (frameBody (appendCrc q)) = trailingCrc (appendCrc q) := by
  have hlen : 2 ≤ (appendCrc q).length := by simp
  exact bne_eq_false_iff_eq.1 ((crcBad_eq_false_iff hlen).2 ⟨q, rfl⟩)

/-- 0x01 is the opcode of no other command (30_encoding.md R83). -/
theorem eq_crcInit_of_op {i : Instr} (h : i.op = 0x01#8) : i = .crcInit := by
  cases i with
  | crcInit => rfl
  | _ => simp [Instr.op] at h

/-! ### The statements -/

/-- Settles O25: on the 2^16 accumulator values an injective step is a bijection. -/
theorem crcStepBijective : Obligations.CrcStepBijective := by
  refine ⟨fun b => ?_, crcStep_injective_byte⟩
  have : Finite Half := Finite.of_injective _ BitVec.toFin_injective
  exact Finite.injective_iff_bijective.1 (crcStep_injective_acc b)

/-- Settles O26: the low byte cancels itself and leaves the high byte, which then cancels itself. -/
theorem crcResidue : Obligations.CrcResidue :=
  ⟨crcStep_lo_hi, crc16_framed⟩

/-- Settles O27: a valid frame has the CRC 0 and a frame with one bit flipped has another one, so it is no valid frame;
its length is as expected, so stage (a) is the first to fail. -/
theorem crcProtectsResponses : Obligations.CrcProtectsResponses := by
  refine ⟨crc16_frameBody_appendCrc, fun s j k hvalid hj hk => ?_⟩
  have hcrc : crcBad (flipBit s.block.rx j k) = true := crcBad_flipBit hvalid hj hk
  have hflip : (flipBit s.block.rx j k).length = s.block.rx.length := flipBit_length _ _ _
  constructor
  · intro hmin hmax hlen
    refine ⟨_, exec_parseRead _, congrArg StatusCode.code (readVerdict_eq_crc ?_ (hflip.trans hlen) hcrc)⟩
    exact (qtyOk_iff _).2 ⟨hmin, hmax⟩
  · intro hlen
    exact ⟨_, exec_parseWrite _, congrArg StatusCode.code (frameVerdict_eq_crc (hflip.trans hlen) hcrc)⟩

/-- Settles O28: each exit of each frame command is one update of the block, whose fields and whose condition are
computed without `CRC_ACC`. -/
theorem frameCommandsKeepCrcAcc : Obligations.FrameCommandsKeepCrcAcc := by
  intro i hi s
  simp only [List.mem_cons, List.not_mem_nil, or_false] at hi
  obtain rfl | rfl | rfl | rfl | rfl := hi
  · by_cases h : s.block.tx.length ≤ 254
    · exact ⟨_, exec_txAppendCrc_of_room h, rfl, fun _ => exec_txAppendCrc_of_room h⟩
    · exact ⟨_, exec_txAppendCrc_of_full (not_le.1 h), rfl, fun _ => exec_txAppendCrc_of_full (not_le.1 h)⟩
  · by_cases h : qtyOk s.block.qty = true
    · exact ⟨_, exec_buildRead_of_qtyOk h, rfl, fun _ => exec_buildRead_of_qtyOk h⟩
    · exact ⟨_, exec_buildRead_of_not_qtyOk h, rfl, fun _ => exec_buildRead_of_not_qtyOk h⟩
  · exact ⟨_, exec_buildWrite s, rfl, fun _ => exec_buildWrite _⟩
  · exact ⟨_, exec_parseRead s, rfl, fun _ => exec_parseRead _⟩
  · exact ⟨_, exec_parseWrite s, rfl, fun _ => exec_parseWrite _⟩

/-- Settles O21: the eight shift steps are the shift step iterated. -/
theorem crcStepRule : Obligations.CrcStepRule :=
  fun acc b => crcShifts_eq_iterate 8 (acc ^^^ b.setWidth 16)

/-- Settles O22: a fold from the seed takes the last byte in one more step. -/
theorem crc16Rule : Obligations.Crc16Rule :=
  ⟨crc16_nil, crc16_snoc⟩

/-- Settles O23: a legal word with the opcode of CRC_INIT is its only encoding. -/
theorem crcInitRule : Obligations.CrcInitRule := by
  refine ⟨exec_crcInit, by decide, decode_eq_instr_iff_encode.2 (by decide), fun w hop hw i hi => hw ?_⟩
  obtain ⟨-, hop', -⟩ := decode_eq_instr_iff.1 hi
  obtain rfl : i = .crcInit := eq_crcInit_of_op (hop'.symm.trans hop)
  exact (decode_eq_instr_iff_encode.1 hi).symm

/-- Settles O24: CRC_BYTE's answer and encoding, and one byte step for each worked value. -/
theorem crcByteEffect : Obligations.CrcByteEffect :=
  ⟨exec_crcByte, fun _ => rfl, by decide, by decide, by decide⟩

end Sys2Proof.Machine

/-!
PROOFS. The request encoder (41_encoder.md R120 to R128): the two bytes of a half, the value of a write request, the
frame of a second append and the verdict for an invalid quantity; each statement is then read off the answers of its
commands.
-/

namespace Sys2Proof.Machine

open Sys2Proof.Statements

/-! ### The bytes of a request -/

/-- A half is its high byte followed by its low byte (00_scope.md R10). -/
theorem hi_toNat_mul_add_lo_toNat (v : Half) : (hi v).toNat * 256 + (lo v).toNat = v.toNat := by
  have hhi : (hi v).toNat = v.toNat / 256 % 256 := by
    rw [hi, BitVec.extractLsb'_toNat, Nat.shiftRight_eq_div_pow]
  have hlo : (lo v).toNat = v.toNat % 256 := by
    rw [lo, BitVec.extractLsb'_toNat, Nat.shiftRight_zero]
  have hv : v.toNat < 65536 := v.isLt
  omega

/-- The value of a write request is `VALUE` modulo 2^16 (41_encoder.md R126). -/
theorem writeValue_toNat (v : Word) : (writeValue v).toNat = v.toNat % 2 ^ 16 := by
  rw [writeValue, BitVec.extractLsb'_toNat, Nat.shiftRight_zero]

theorem writeValue_eq_of_mod_eq {v w : Word} (h : v.toNat % 2 ^ 16 = w.toNat % 2 ^ 16) :
    writeValue v = writeValue w :=
  BitVec.eq_of_toNat_eq <| by rw [writeValue_toNat, writeValue_toNat, h]

/-- Bytes 4 and 5 of a request are its second field, high byte first (41_encoder.md R123). -/
theorem request_field2_toNat (slave fc : Byte) (f1 f2 : Half) :
    ((request slave fc f1 f2).getD 4 0#8).toNat * 256 + ((request slave fc f1 f2).getD 5 0#8).toNat = f2.toNat :=
  hi_toNat_mul_add_lo_toNat f2

/-- A write request's bytes taken from the 32-bit `VALUE` itself (41_encoder.md R127). -/
theorem request_writeValue (slave fc : Byte) (a : Half) (v : Word) :
    request slave fc a (writeValue v) = framed [slave, fc, hi a, lo a, v.extractLsb' 8 8, v.extractLsb' 0 8] := by
  rw [request_eq_framed, writeValue, hi_extractLsb', lo_extractLsb']

/-! ### The appended CRC -/

theorem appendCrc_nil : appendCrc [] = [0xFF#8, 0xFF#8] := rfl

/-- The CRC of the known vector (41_encoder.md R122), its 48 shift steps evaluated. -/
theorem crc16_knownVector : crc16 [0x01#8, 0x03#8, 0x00#8, 0x00#8, 0x00#8, 0x0A#8] = 0xCDC5#16 := by
  simp [crc16, crcStep, crcShifts, crcShift, Config.crcPoly, Config.crcSeed]

theorem appendCrc_knownVector :
    appendCrc [0x01#8, 0x03#8, 0x00#8, 0x00#8, 0x00#8, 0x0A#8] =
      [0x01#8, 0x03#8, 0x00#8, 0x00#8, 0x00#8, 0x0A#8, 0xC5#8, 0xCD#8] := by
  rw [appendCrc, crc16_knownVector]
  rfl

/-- A frame that already ends in its CRC has the CRC 0, so the second append adds two zero bytes (41_encoder.md R122). -/
theorem appendCrc_appendCrc (p : List Byte) : appendCrc (appendCrc p) = appendCrc p ++ [0x00#8, 0x00#8] := by
  have hcrc : crc16 (appendCrc p) = 0x0000#16 := crc16_framed p
  rw [appendCrc, hcrc]
  rfl

/-! ### The quantity -/

theorem not_qtyOk_of_outside {q : Half} (h : q.toNat = 0 ∨ 125 < q.toNat) : ¬ qtyOk q = true := by
  rw [qtyOk_iff]
  omega

/-- A code names its outcome (60_exceptions.md R201). -/
theorem code_eq_iff {c d : StatusCode} : c.code = d.code ↔ c = d :=
  ⟨code_inj, congrArg StatusCode.code⟩

/-- The shared stages and stage (f) never answer ERR_VALIDATION, so stage V alone does (42_decoder.md R162). -/
theorem readVerdict_eq_validation_iff {p : Params} {b : Block} :
    readVerdict p b = .validation ↔ ¬ qtyOk b.qty = true := by
  by_cases hq : qtyOk b.qty = true
  · have hframe := frameVerdict_cases p (readRespLen b.qty) Config.fcRead b.slave b.rx
    simp only [readVerdict, hq, if_true, not_true, iff_false]
    generalize frameVerdict p (readRespLen b.qty) Config.fcRead b.slave b.rx = v at hframe
    unfold byteCountVerdict
    split
    · split <;> decide
    · rintro rfl
      exact absurd hframe (by decide)
  · simp [readVerdict, hq]

/-! ### The statements -/

/-- Settles O31: an exit for room and one for none; a frame with its CRC has the CRC 0; the known vector's CRC is
0xCDC5. -/
theorem txAppendCrcRule : Obligations.TxAppendCrcRule := by
  refine ⟨by decide, fun s => ⟨exec_txAppendCrc_of_room, exec_txAppendCrc_of_full⟩, fun s htx => ?_, fun s hlen => ?_,
    fun s htx => ?_⟩
  · exact ⟨_, exec_txAppendCrc_of_room (by simp [htx]), (congrArg appendCrc htx).trans appendCrc_nil⟩
  · have hroom : (appendCrc s.block.tx).length ≤ 254 := by
      rw [appendCrc_length]
      omega
    exact ⟨_, _, exec_txAppendCrc_of_room (by omega), exec_txAppendCrc_of_room hroom, appendCrc_appendCrc s.block.tx⟩
  · exact ⟨_, exec_txAppendCrc_of_room (by simp [htx]), (congrArg appendCrc htx).trans appendCrc_knownVector⟩

/-- Settles O34: BUILD_READ's two exits and PARSE_READ's verdict turn on `qtyOk`, which is the bounds. -/
theorem quantityBounds : Obligations.QuantityBounds := by
  intro i hi s
  rw [← qtyOk_iff]
  simp only [List.mem_cons, List.not_mem_nil, or_false] at hi
  obtain rfl | rfl := hi
  · by_cases h : qtyOk s.block.qty = true
    · exact ⟨_, exec_buildRead_of_qtyOk h, by simp [h]⟩
    · exact ⟨_, exec_buildRead_of_not_qtyOk h, by simp [h, StatusCode.code]⟩
  · exact ⟨_, exec_parseRead s, code_eq_iff.trans readVerdict_eq_validation_iff⟩

/-- Settles O35: the frame is built from `VALUE` modulo 2^16 alone. -/
theorem writeValueMasked : Obligations.WriteValueMasked := by
  intro s v hv
  refine ⟨_, _, exec_buildWrite s, exec_buildWrite _, rfl, rfl, ?_, rfl, rfl, ?_⟩
  · exact congrArg (request s.block.slave 0x06#8 s.block.addr) (writeValue_eq_of_mod_eq hv)
  · exact (request_field2_toNat _ _ _ _).trans (writeValue_toNat _)

/-- Settles O36: each exit of the two commands is one update of the block. -/
theorem buildEmptiesRx : Obligations.BuildEmptiesRx := by
  intro i hi s
  simp only [List.mem_cons, List.not_mem_nil, or_false] at hi
  obtain rfl | rfl := hi
  · by_cases h : qtyOk s.block.qty = true
    · exact ⟨_, exec_buildRead_of_qtyOk h, by simp⟩
    · exact ⟨_, exec_buildRead_of_not_qtyOk h, by simp [StatusCode.code]⟩
  · exact ⟨_, exec_buildWrite s, by simp⟩

/-- Settles O29: TX_CLEAR's answer; past the end of an empty TX every window word is 0. -/
theorem txClearRule : Obligations.TxClearRule :=
  ⟨by decide, fun s => ⟨exec_txClear s, fun _ hi => hostRead_txBuf _ _ hi⟩⟩

/-- Settles O30: TX_PUSH's two exits. -/
theorem txPushEffect : Obligations.TxPushEffect :=
  ⟨fun _ b => ⟨exec_txPush_of_room b, exec_txPush_of_full b⟩, fun _ => rfl⟩

/-- Settles O32: BUILD_READ's two exits, by whether the quantity is valid. -/
theorem buildReadEffect : Obligations.BuildReadEffect :=
  ⟨by decide, fun _ => ⟨fun hmin hmax => exec_buildRead_of_qtyOk ((qtyOk_iff _).2 ⟨hmin, hmax⟩),
    fun h => exec_buildRead_of_not_qtyOk (not_qtyOk_of_outside h)⟩⟩

/-- Settles O33: BUILD_WRITE's answer, with the two bytes of the masked value read from `VALUE`. -/
theorem buildWriteEffect : Obligations.BuildWriteEffect := by
  refine ⟨by decide, fun s => ?_⟩
  rw [exec_buildWrite, request_writeValue]
  rfl

end Sys2Proof.Machine

/-!
PROOFS. The response validator (42_decoder.md R150 to R168): a parse ends in one shared operation, whose verdict is read
stage by stage; the shared stages by whether the length is one that a response may have; and a valid frame with one byte
after it.
-/

namespace Sys2Proof.Machine

open Sys2Proof.Statements

/-! ### How a parse ends -/

/-- A parse ends with its verdict and its words, whichever parse it is (42_decoder.md R165, R166). -/
theorem exec_parse {i : Instr} (hi : i ∈ [Instr.parseRead, .parseWrite]) (s : State) :
    ∃ v words, exec i s = .next (s.withBlock (finishParse v words s.block)) := by
  simp only [List.mem_cons, List.not_mem_nil, or_false] at hi
  obtain rfl | rfl := hi
  · exact ⟨_, _, exec_parseRead s⟩
  · exact ⟨_, _, exec_parseWrite s⟩

theorem code_eq_five_iff {v : StatusCode} : v.code = 0x05#8 ↔ v = .protocolException :=
  code_eq_iff (d := .protocolException)

/-- The end of a parse, told by the number that STATUS then shows. -/
theorem finishParse_of_code {v : StatusCode} {code : Byte} (h : v.code = code) (words : List Half) (b : Block) :
    finishParse v words b =
      { b with
        status := code
        excCode := if code = 0x05#8 then b.rx.getD 2 0#8 else 0x00#8
        result := if code = 0x00#8 then words else [] } := by
  subst h
  simp only [finishParse, code_eq_zero_iff, code_eq_five_iff, byteAt]

/-- No command but the two parses writes RESULT or EXC_CODE (10_state.md R25, R30, R32). -/
theorem exec_keeps_result_excCode {i : Instr} (hr : i ≠ .parseRead) (hw : i ≠ .parseWrite) (s : State) :
    ∃ t, exec i s = .next t ∧ t.block.result = s.block.result ∧ t.block.excCode = s.block.excCode := by
  obtain ⟨t, ht, -, -, -, -, -, -, -, -, -, -, hkeep⟩ := writtenOnlyBy i s
  exact ⟨t, ht, hkeep (by simp [hr, hw])⟩

/-! ### The stages one by one -/

theorem xs_iff_shortExc {s : State} : Xs s ↔ shortExc s.params s.block.rx = true := by
  simp only [Xs, shortExc, excBit, byteAt, Bool.and_eq_true, beq_iff_eq, and_assoc]
  exact and_left_comm

theorem not_xs_iff {s : State} : ¬ Xs s ↔ shortExc s.params s.block.rx = false := by
  rw [xs_iff_shortExc, Bool.not_eq_true]

/-- Stage (a) fails on exactly the frames without a valid CRC (42_decoder.md R154). -/
theorem crcBad_iff_not_crcValid {rx : List Byte} (h : 2 ≤ rx.length) : crcBad rx = true ↔ ¬ CrcValid rx := by
  rw [← Bool.not_eq_false]
  exact not_congr (crcBad_eq_false_iff h)

/-- One stage of a chain (42_decoder.md R152): where its condition holds its code is reported, and otherwise the rest of
the chain decides. What comes after the chain, `f`, acts on OK alone. -/
theorem code_of_stage {f : StatusCode → StatusCode} (hf : ∀ v, v ≠ .ok → f v = v) {c : Bool} {P : Prop} [Decidable P]
    {v w : StatusCode} {y : Byte} (hv : v ≠ .ok) (hc : c = true ↔ P) (hrest : c = false → (f w).code = y) :
    (f (if c = true then v else w)).code = if P then v.code else y := by
  cases c with
  | true => rw [if_pos rfl, if_pos (hc.1 rfl), hf v hv]
  | false => rw [if_neg Bool.false_ne_true, if_neg (fun hP => Bool.false_ne_true (hc.2 hP)), hrest rfl]

open Classical in
/-- The shared stages S and (a) to (e) in order, with `f` the stages after them (42_decoder.md R152 to R159). -/
theorem code_of_frameVerdict {f : StatusCode → StatusCode} (hf : ∀ v, v ≠ .ok → f v = v) {e : Nat} (he : 5 ≤ e)
    (fc slave : Byte) (s : State) :
    (f (frameVerdict s.params e fc slave s.block.rx)).code =
      if s.block.rx.length < e ∧ ¬ Xs s then 0x02#8
      else if ¬ CrcValid s.block.rx then 0x03#8
      else if s.block.rx.length ≠ e ∧ ¬ Xs s then 0x06#8
      else if s.block.rx.getD 0 0#8 ≠ slave then 0x04#8
      else if (s.block.rx.getD 1 0#8).getLsbD 7 then 0x05#8
      else if s.block.rx.getD 1 0#8 ≠ fc then 0x06#8
      else (f .ok).code := by
  unfold frameVerdict
  refine code_of_stage hf (by decide) (by rw [shortRead_iff, not_xs_iff]) fun hshort => ?_
  have hlen : 2 ≤ s.block.rx.length := le_trans (by decide) (length_of_not_shortRead he hshort)
  refine code_of_stage hf (by decide) (crcBad_iff_not_crcValid hlen) fun _ => ?_
  refine code_of_stage hf (by decide) (by rw [lengthBad_iff, not_xs_iff]) fun _ => ?_
  refine code_of_stage hf (by decide) bne_iff_ne fun _ => ?_
  refine code_of_stage hf (by decide) Iff.rfl fun _ => ?_
  exact code_of_stage hf (by decide) bne_iff_ne fun _ => rfl

/-- Stage (f) acts on OK alone. -/
theorem byteCountVerdict_of_ne_ok {q : Half} {rx : List Byte} : ∀ v, v ≠ .ok → byteCountVerdict q rx v = v := by
  intro v hv
  unfold byteCountVerdict
  split
  · exact absurd rfl hv
  · rfl

theorem decodeWords_eq_ofFn (rx : List Byte) (q : Nat) :
    decodeWords rx q = List.ofFn fun i : Fin q =>
      ((rx.getD (3 + 2 * i) 0#8).zeroExtend 16 <<< 8) ||| (rx.getD (4 + 2 * i) 0#8).zeroExtend 16 := by
  refine List.ext_getElem (by simp) fun i _ _ => ?_
  simp only [decodeWords, List.getElem_map, List.getElem_range, List.getElem_ofFn]
  rfl

section Answer
variable {s : State} {code : Byte}

/-- PARSE_READ's answer, told by the number of its verdict. -/
theorem exec_parseRead_of_code (h : (readVerdict s.params s.block).code = code) :
    exec .parseRead s = .next { s with block := { s.block with
      status := code
      excCode := if code = 0x05#8 then s.block.rx.getD 2 0#8 else 0x00#8
      result := if code = 0x00#8 then
          List.ofFn fun i : Fin s.block.qty.toNat =>
            ((s.block.rx.getD (3 + 2 * i) 0#8).zeroExtend 16 <<< 8) ||| (s.block.rx.getD (4 + 2 * i) 0#8).zeroExtend 16
        else [] } } := by
  rw [exec_parseRead, finishParse_of_code h, decodeWords_eq_ofFn]
  rfl

/-- PARSE_WRITE's answer, told by the number of its verdict. -/
theorem exec_parseWrite_of_code (h : (writeVerdict s.params s.block).code = code) :
    exec .parseWrite s = .next { s with block := { s.block with
      status := code
      excCode := if code = 0x05#8 then s.block.rx.getD 2 0#8 else 0x00#8
      result := [] } } := by
  rw [exec_parseWrite, finishParse_of_code h, ite_self]
  rfl

end Answer

/-! ### The shared stages by the length -/

section Length
variable {p : Params} {e : Nat} {fc slave : Byte} {rx : List Byte}

/-- A response of the expected length, or a short exception frame, passes stages S and (b) (42_decoder.md R153, R155,
R164). -/
theorem frameVerdict_of_length (h : rx.length = e ∨ shortExc p rx = true) :
    frameVerdict p e fc slave rx =
      if crcBad rx then .crc
      else if byteAt rx 0 != slave then .slaveMismatch
      else if excBit rx then .protocolException
      else if byteAt rx 1 != fc then .malformed
      else .ok := by
  have hshort : shortRead p e rx = false := by
    obtain h | h := h <;> simp [shortRead, h]
  have hlong : lengthBad p e rx = false := by
    obtain h | h := h <;> simp [lengthBad, h]
  simp only [frameVerdict, hshort, hlong, Bool.false_eq_true, if_false]

/-- Any other response is too short, has a bad CRC or is malformed. -/
theorem frameVerdict_of_not_length (h : ¬ (rx.length = e ∨ shortExc p rx = true)) :
    frameVerdict p e fc slave rx =
      if rx.length < e then .shortRead else if crcBad rx then .crc else .malformed := by
  obtain ⟨hne, hxs⟩ := not_or.1 h
  have hxs : shortExc p rx = false := Bool.not_eq_true _ ▸ hxs
  have hlong : lengthBad p e rx = true := lengthBad_iff.2 ⟨hne, hxs⟩
  simp only [frameVerdict, shortRead_iff, hxs, hlong, and_true, if_true]

theorem frameVerdict_of_short (h : rx.length < e) (hxs : shortExc p rx = false) :
    frameVerdict p e fc slave rx = .shortRead :=
  if_pos (shortRead_iff.2 ⟨h, hxs⟩)

/-- A short exception frame is checked for its CRC and its slave, and is then an exception (42_decoder.md R164). -/
theorem frameVerdict_of_shortExc (h : shortExc p rx = true) :
    frameVerdict p e fc slave rx =
      if crcBad rx then .crc else if byteAt rx 0 != slave then .slaveMismatch else .protocolException := by
  have hexc : excBit rx = true := by
    simp only [shortExc, Bool.and_eq_true] at h
    exact h.2
  rw [frameVerdict_of_length (.inr h), hexc]
  simp only [if_true]

/-- Bit 7 apart, a short exception frame is a matter of the parameter and the length (42_decoder.md R164). -/
theorem shortExc_iff_of_excBit (h : excBit rx = true) :
    shortExc p rx = true ↔ p.excShortFrame = true ∧ rx.length = 5 := by
  simp [shortExc, h, and_comm]

/-- When stage (d) reports the exception (42_decoder.md R158). -/
theorem frameVerdict_eq_protocolException_iff (he : 5 ≤ e) :
    frameVerdict p e fc slave rx = .protocolException ↔
      (rx.length = e ∨ shortExc p rx = true) ∧ CrcValid rx ∧ byteAt rx 0 = slave ∧ excBit rx = true := by
  by_cases h : rx.length = e ∨ shortExc p rx = true
  · have hlen : 2 ≤ rx.length := by
      obtain h | h := h
      · omega
      · have := length_of_shortExc h
        omega
    have hcrc : CrcValid rx ↔ ¬ crcBad rx = true := by rw [crcBad_iff_not_crcValid hlen, not_not]
    rw [frameVerdict_of_length h, hcrc]
    split_ifs <;> simp_all
  · rw [frameVerdict_of_not_length h]
    split_ifs <;> simp [h]

end Length

/-- A parse for the expected length `e` reports the shared stages' verdict; stage (f) can only turn OK into
ERR_MALFORMED (42_decoder.md R162, R163). -/
theorem exec_parse_of_expectedLength {s : State} {i : Instr} {e : Nat}
    (h : (i = .parseWrite ∧ e = 8) ∨
      (i = .parseRead ∧ e = 5 + 2 * s.block.qty.toNat ∧ 1 ≤ s.block.qty.toNat ∧ s.block.qty.toNat ≤ 125)) :
    ∃ fc v words, exec i s = .next (s.withBlock (finishParse v words s.block)) ∧
      ∀ c, c ≠ .ok → c ≠ .malformed → (v = c ↔ frameVerdict s.params e fc s.block.slave s.block.rx = c) := by
  obtain ⟨rfl, rfl⟩ | ⟨rfl, rfl, hq⟩ := h
  · exact ⟨_, _, _, exec_parseWrite s, fun _ _ _ => Iff.rfl⟩
  · refine ⟨Config.fcRead, _, _, exec_parseRead s, fun c hok hmal => ?_⟩
    rw [readVerdict, if_pos ((qtyOk_iff _).2 hq), readRespLen]
    by_cases hv : frameVerdict s.params (5 + 2 * s.block.qty.toNat) Config.fcRead s.block.slave s.block.rx = .ok
    · rw [hv, byteCountVerdict]
      split <;> simp [hok.symm, hmal.symm]
    · rw [byteCountVerdict_of_ne_ok _ hv]

/-! ### The trailing CRC, and one byte after a frame -/

theorem crcBad_append_two (q : List Byte) (l m : Byte) : crcBad (q ++ [l, m]) = (crc16 q != half m l) := by
  simp [crcBad, frameBody, trailingCrc, byteAt]

theorem crcBad_five (a f c l h : Byte) : crcBad [a, f, c, l, h] = (crc16 [a, f, c] != half h l) :=
  crcBad_append_two [a, f, c] l h

section FiveBytes
variable {p : Params} {e : Nat} {f : Byte} (fc slave a c l h : Byte)

/-- Five bytes that are no short exception frame are too few (42_decoder.md R164). -/
theorem frameVerdict_five_of_no_exception (he : 5 < e) (hno : p.excShortFrame = false ∨ f.getLsbD 7 = false) :
    frameVerdict p e fc slave [a, f, c, l, h] = .shortRead := by
  have hxs : shortExc p [a, f, c, l, h] = false := by
    obtain hno | hno := hno
    · simp [shortExc, hno]
    · exact shortExc_eq_false hno
  exact frameVerdict_of_short he hxs

/-- A short exception frame has its CRC in bytes 3 and 4 and its slave in byte 0 (42_decoder.md R164). -/
theorem frameVerdict_five_of_exception (hshort : p.excShortFrame = true) (hbit : f.getLsbD 7 = true) :
    frameVerdict p e fc slave [a, f, c, l, h] =
      if crc16 [a, f, c] ≠ half h l then .crc else if a ≠ slave then .slaveMismatch else .protocolException := by
  have hxs : shortExc p [a, f, c, l, h] = true := (shortExc_iff_of_excBit (rx := [a, f, c, l, h]) hbit).2 ⟨hshort, rfl⟩
  rw [frameVerdict_of_shortExc hxs]
  simp only [crcBad_five, bne_iff_ne]
  rfl

end FiveBytes

theorem setWidth_eq_half_iff {b m : Byte} : b.setWidth 16 = half m b ↔ m = 0x00#8 := by
  constructor
  · intro h
    have hhi : hi (b.setWidth 16) = 0x00#8 := by
      ext i h8
      simp [hi]
    rw [← hhi, h, hi_half]
  · rintro rfl
    simp [half]

/-- With a byte after it, a frame's CRC covers its own low byte and leaves its high byte alone, which is the trailing
CRC only where the new byte is 0 (42_decoder.md R162, corner case). -/
theorem crcBad_framed_append (q : List Byte) (x : Byte) : crcBad (framed q ++ [x]) = true ↔ x ≠ 0x00#8 := by
  have hsplit : framed q ++ [x] = (q ++ [lo (crc16 q)]) ++ [hi (crc16 q), x] := by
    simp [framed, lo, hi]
  rw [hsplit, crcBad_append_two, crc16_snoc, crcStep_lo, bne_iff_ne, ne_eq, setWidth_eq_half_iff]

/-! ### What is read and accepted after a parse -/

/-- The RESULT window holds the words of RESULT (20_memory.md R54). -/
theorem hostRead_result_of_lt (p : Params) {b : Block} {k : Nat} (hk : k < b.result.length)
    (hmax : b.result.length ≤ 125) :
    hostRead p b (BitVec.ofNat 12 (0xC00 + 4 * k)) = (b.result[k]).zeroExtend 32 := by
  rw [hostRead_resultBuf _ _ (by omega), setWidth_getD_eq_dite, dif_pos hk]

theorem readResponse_length (slave : Byte) (ws : List Half) :
    (readResponse slave ws).length = 5 + 2 * ws.length := by
  rw [readResponse_eq, framed_length]
  simp only [List.length_cons, wordBytes_length]
  omega

/-! ### The statements -/

/-- Settles O38: RX_PUSH's two exits; an accepted response has at most 255 bytes. -/
theorem rxPushRule : Obligations.RxPushRule := by
  refine ⟨fun s b => ⟨exec_rxPush_of_room b, exec_rxPush_of_full b⟩, fun _ => rfl, fun i hi s hfull => ?_⟩
  simp only [List.mem_cons, List.not_mem_nil, or_false] at hi
  obtain rfl | rfl := hi
  · obtain ⟨t, ht, hok, -⟩ := parseReadAcceptsExactly s
    refine ⟨t, ht, fun h0 => ?_⟩
    obtain ⟨-, hmax, ws, hws, hrx⟩ := hok.1 h0
    rw [hrx, readResponse_length] at hfull
    omega
  · obtain ⟨t, ht, hok⟩ := parseWriteAcceptsExactly s
    refine ⟨t, ht, fun h0 => ?_⟩
    obtain ⟨rh, rl, vh, vl, hrx⟩ := hok.1 h0
    rw [hrx, framed_length] at hfull
    cases hfull

/-- Settles O39: stage V, the shared stages with function 0x03, then stage (f), each by its condition. -/
theorem parseReadStages : Obligations.ParseReadStages := by
  refine ⟨by decide, fun s => exec_parseRead_of_code ?_⟩
  by_cases hq : qtyOk s.block.qty = true
  · have he : 5 ≤ readRespLen s.block.qty := Nat.le_add_right _ _
    have hcount : (byteCountVerdict s.block.qty s.block.rx .ok).code =
        if (s.block.rx.getD 2 0#8).toNat ≠ 2 * s.block.qty.toNat then 0x06#8 else 0x00#8 :=
      code_of_stage (f := id) (fun _ _ => rfl) (by decide) bne_iff_ne fun _ => rfl
    rw [readVerdict, if_pos hq, code_of_frameVerdict byteCountVerdict_of_ne_ok he, hcount,
      if_neg (not_not.2 ((qtyOk_iff _).1 hq))]
    rfl
  · rw [readVerdict, if_neg hq, if_pos (mt (qtyOk_iff _).2 hq)]
    rfl

/-- Settles O40: the shared stages with function 0x06 and 8 bytes, and no words. -/
theorem parseWriteStages : Obligations.ParseWriteStages :=
  ⟨by decide, fun s => exec_parseWrite_of_code (code_of_frameVerdict (f := id) (fun _ _ => rfl) (by decide) _ _ s)⟩

/-- Settles O43: a parse writes EXC_CODE and STATUS from one verdict, and no other command writes EXC_CODE. -/
theorem exceptionCodeRule : Obligations.ExceptionCodeRule := by
  refine ⟨fun i hi s => ?_, fun i s hr hw => ?_⟩
  · obtain ⟨v, words, ht⟩ := exec_parse hi s
    refine ⟨_, ht, ?_⟩
    rw [finishParse_of_code rfl]
    exact ⟨rfl, fun h => of_not_not fun hne => h (if_neg hne)⟩
  · obtain ⟨t, ht, -, hexc⟩ := exec_keeps_result_excCode hr hw s
    exact ⟨t, ht, hexc⟩

/-- Settles O44: RESULT holds words on OK alone, at most 125 of them, so each has its word of the window; no other
command writes RESULT (10_state.md R25, R32; at a failing BUILD_READ, log entry 16). -/
theorem resultRule : Obligations.ResultRule := by
  refine ⟨fun s => ⟨_, exec_parseRead s, fun hne => ?_, fun h0 => ?_⟩, fun s => ⟨_, exec_parseWrite s, ?_⟩,
    fun i s hr hw => ?_⟩
  · exact if_neg fun hok => hne (code_eq_zero_iff.2 hok)
  · have hok : readVerdict s.params s.block = .ok := code_eq_zero_iff.1 h0
    have hmax : (decodeWords s.block.rx s.block.qty.toNat).length ≤ 125 := decodeWords_length_le_of_readVerdict_ok hok
    have hres : (finishParse (readVerdict s.params s.block) (decodeWords s.block.rx s.block.qty.toNat) s.block).result =
        decodeWords s.block.rx s.block.qty.toNat := if_pos hok
    refine ⟨(congrArg List.length hres).trans (decodeWords_length _ _), fun k hk => hostRead_result_of_lt _ hk ?_⟩
    exact (congrArg List.length hres).trans_le hmax
  · exact ite_self _
  · obtain ⟨t, ht, hres, -⟩ := exec_keeps_result_excCode hr hw s
    exact ⟨t, ht, hres⟩

/-- Settles O45: the verdicts, the words and the exception code are computed from RX, SLAVE, the parameter and QTY. -/
theorem parseReadsOnlyItsOperands : Obligations.ParseReadsOnlyItsOperands := by
  intro s s' hp hrx hslave
  refine ⟨⟨_, _, exec_parseWrite s, exec_parseWrite s', ?_⟩, fun hq => ⟨_, _, exec_parseRead s, exec_parseRead s', ?_⟩⟩
  · simp [writeVerdict, hp, hrx, hslave]
  · simp [readVerdict, hp, hrx, hslave, hq]

/-- Settles O49: a parse leaves all that its verdict and its words are computed from, so its second answer writes the
values that its first has written. -/
theorem parseAgainSameResult : Obligations.ParseAgainSameResult := by
  intro i hi s
  simp only [List.mem_cons, List.not_mem_nil, or_false] at hi
  obtain rfl | rfl := hi
  · exact ⟨_, exec_parseRead s, rfl, exec_parseRead _⟩
  · exact ⟨_, exec_parseWrite s, rfl, exec_parseWrite _⟩

/-- Settles O37: RX_CLEAR's answer; a successful BUILD empties RX. -/
theorem rxClearRule : Obligations.RxClearRule := by
  refine ⟨by decide, exec_rxClear, fun i hi s => ?_⟩
  obtain ⟨t, ht, hempty, -⟩ := buildEmptiesRx i hi s
  exact ⟨t, ht, hempty⟩

/-- Settles O47: one byte too many fails stage (b), unless stage (a) fails first. -/
theorem oneExtraByte : Obligations.OneExtraByte := by
  intro s x hmin hmax hlen hvalid
  refine ⟨_, exec_parseRead _, ?_⟩
  have hlong : (s.block.rx ++ [x]).length = 6 + 2 * s.block.qty.toNat := by
    rw [List.length_append, hlen, List.length_singleton]
    omega
  have hno : ¬ ((s.block.rx ++ [x]).length = 5 + 2 * s.block.qty.toNat ∨
      shortExc s.params (s.block.rx ++ [x]) = true) := by
    rintro (h | h)
    · omega
    · have := length_of_shortExc h
      omega
  have hframe : frameVerdict s.params (5 + 2 * s.block.qty.toNat) Config.fcRead s.block.slave (s.block.rx ++ [x]) =
      if x = 0x00#8 then .malformed else .crc := by
    obtain ⟨q, hq⟩ := hvalid
    rw [frameVerdict_of_not_length hno, if_neg (by omega), hq]
    simp only [crcBad_framed_append, ne_eq, ite_not]
  have hread : readVerdict s.params { s.block with rx := s.block.rx ++ [x] } =
      if x = 0x00#8 then .malformed else .crc := by
    rw [readVerdict, if_pos ((qtyOk_iff _).2 ⟨hmin, hmax⟩), readRespLen, hframe]
    exact byteCountVerdict_of_ne_ok _ (by split <;> decide)
  rw [State_withBlock_block, finishParse_status, hread, apply_ite StatusCode.code]
  rfl

/-- Settles O46: a 5-byte frame is too short unless it is a short exception frame, which skips stages S and (b); and the
stages that stand before the exception exit, and no others, are passed where it is taken. -/
theorem shortExceptionFrame : Obligations.ShortExceptionFrame := by
  refine ⟨fun s i a f c l h hrx hi => ?_, fun s i e hi => ?_⟩
  · obtain ⟨e, he, hi⟩ : ∃ e, 5 < e ∧ ((i = .parseWrite ∧ e = 8) ∨
        (i = .parseRead ∧ e = 5 + 2 * s.block.qty.toNat ∧ 1 ≤ s.block.qty.toNat ∧ s.block.qty.toNat ≤ 125)) := by
      obtain hi | ⟨hi, hmin, hmax⟩ := hi
      · exact ⟨8, by decide, .inl ⟨hi, rfl⟩⟩
      · exact ⟨_, by omega, .inr ⟨hi, rfl, hmin, hmax⟩⟩
    obtain ⟨fc, v, words, ht, hv⟩ := exec_parse_of_expectedLength hi
    refine ⟨_, ht, fun hno => ?_, fun hshort hbit => ⟨?_, fun h5 => ?_⟩⟩
    · have hframe := frameVerdict_five_of_no_exception (p := s.params) fc s.block.slave a c l h he hno
      rw [← hrx] at hframe
      exact congrArg StatusCode.code ((hv .shortRead (by decide) (by decide)).2 hframe)
    · have hframe := frameVerdict_five_of_exception (e := e) fc s.block.slave a c l h hshort hbit
      rw [← hrx] at hframe
      have hverdict := (hv _ (by split_ifs <;> decide) (by split_ifs <;> decide)).2 hframe
      rw [State_withBlock_block, finishParse_status, hverdict, apply_ite StatusCode.code, apply_ite StatusCode.code]
      rfl
    · exact (if_pos (code_eq_five_iff.1 h5)).trans (congrArg (byteAt · 2) hrx)
  · obtain ⟨fc, v, words, ht, hv⟩ := exec_parse_of_expectedLength hi
    have he : 5 ≤ e := by omega
    refine ⟨_, ht, ?_, fun h5 => if_pos (code_eq_five_iff.1 h5)⟩
    refine (code_eq_five_iff.trans (hv _ (by decide) (by decide))).trans ?_
    rw [frameVerdict_eq_protocolException_iff he]
    exact and_congr_left fun ⟨_, _, hexc⟩ => or_congr_right (shortExc_iff_of_excBit hexc)

end Sys2Proof.Machine

/-!
PROOFS. The control family (44_control.md R190 to R195): the exits by which a command fails, each with its condition and
the block it leaves; NOP and illegal words; writes to the operand registers.
-/

namespace Sys2Proof.Machine

open Sys2Proof.Statements

/-! ### How a command fails -/

/-- The failing exits of 44_control.md R195: the command, the condition under which it fails from `s`, and the block it
then leaves. No other command fails. -/
inductive Fails (s : State) : Instr → Block → Prop
  | txPush (b : Byte) (full : s.block.tx.length = 256) : Fails s (.txPush b) (raiseErr .capacity s.block)
  | txAppendCrc (full : 254 < s.block.tx.length) : Fails s .txAppendCrc (raiseErr .capacity s.block)
  | rxPush (b : Byte) (full : s.block.rx.length = 256) : Fails s (.rxPush b) (raiseErr .capacity s.block)
  | buildRead (outside : ¬ qtyOk s.block.qty = true) :
      Fails s .buildRead (raiseErr .validation { s.block with tx := [] })
  | parseRead (failed : readVerdict s.params s.block ≠ .ok) :
      Fails s .parseRead (finishParse (readVerdict s.params s.block) [] s.block)
  | parseWrite (failed : writeVerdict s.params s.block ≠ .ok) :
      Fails s .parseWrite (finishParse (writeVerdict s.params s.block) [] s.block)

/-- A parse with a failing verdict has no use for its words (42_decoder.md R166). -/
theorem finishParse_of_ne_ok {v : StatusCode} (hv : v ≠ .ok) (words : List Half) (b : Block) :
    finishParse v words b = finishParse v [] b := by
  simp only [finishParse, if_neg hv]

/-- A parse without words empties RESULT and writes STATUS and EXC_CODE, and nothing else. -/
theorem finishParse_nil (v : StatusCode) (b : Block) :
    finishParse v [] b =
      { b with status := v.code, result := [], excCode := (finishParse v [] b).excCode } := by
  simp only [finishParse, ite_self]

/-- A command reports OK or takes a failing exit (44_control.md R193). -/
theorem exec_ok_or_fails (i : Instr) (s : State) :
    ∃ b, exec i s = .next (s.withBlock b) ∧ (b.status = 0x00#8 ∨ Fails s i b) := by
  cases i with
  | nop => exact ⟨_, exec_nop s, .inl rfl⟩
  | crcInit => exact ⟨_, exec_crcInit s, .inl rfl⟩
  | crcByte b => exact ⟨_, exec_crcByte s b, .inl rfl⟩
  | txClear => exact ⟨_, exec_txClear s, .inl rfl⟩
  | txPush b =>
    by_cases h : s.block.tx.length = 256
    · exact ⟨_, exec_txPush_of_full b h, .inr (.txPush b h)⟩
    · exact ⟨_, exec_txPush_of_room b h, .inl rfl⟩
  | txAppendCrc =>
    by_cases h : s.block.tx.length ≤ 254
    · exact ⟨_, exec_txAppendCrc_of_room h, .inl rfl⟩
    · exact ⟨_, exec_txAppendCrc_of_full (not_le.1 h), .inr (.txAppendCrc (not_le.1 h))⟩
  | buildRead =>
    by_cases h : qtyOk s.block.qty = true
    · exact ⟨_, exec_buildRead_of_qtyOk h, .inl rfl⟩
    · exact ⟨_, exec_buildRead_of_not_qtyOk h, .inr (.buildRead h)⟩
  | buildWrite => exact ⟨_, exec_buildWrite s, .inl rfl⟩
  | rxClear => exact ⟨_, exec_rxClear s, .inl rfl⟩
  | rxPush b =>
    by_cases h : s.block.rx.length = 256
    · exact ⟨_, exec_rxPush_of_full b h, .inr (.rxPush b h)⟩
    · exact ⟨_, exec_rxPush_of_room b h, .inl rfl⟩
  | parseRead =>
    refine ⟨_, exec_parseRead s, ?_⟩
    by_cases h : readVerdict s.params s.block = .ok
    · exact .inl (code_eq_zero_iff.2 h)
    · rw [finishParse_of_ne_ok h]
      exact .inr (.parseRead h)
  | parseWrite =>
    refine ⟨_, exec_parseWrite s, ?_⟩
    by_cases h : writeVerdict s.params s.block = .ok
    · exact .inl (code_eq_zero_iff.2 h)
    · exact .inr (.parseWrite h)

/-- Every command may report OK (60_exceptions.md R201). -/
theorem ok_mem_statusCodes (i : Instr) : 0x00#8 ∈ statusCodes i := by
  cases i <;> exact List.mem_cons_self

/-- A failing exit reports one of the command's codes (60_exceptions.md R201). -/
theorem Fails.status_mem {s : State} {i : Instr} {b : Block} (h : Fails s i b) : b.status ∈ statusCodes i := by
  cases h with
  | txPush _ _ | txAppendCrc _ | rxPush _ _ | buildRead _ => exact List.mem_cons_of_mem _ List.mem_cons_self
  | parseRead _ => exact List.mem_map_of_mem (f := StatusCode.code) (readVerdict_cases s.params s.block)
  | parseWrite _ => exact List.mem_map_of_mem (f := StatusCode.code) (writeVerdict_cases s.params s.block)

/-! ### Words and states -/

theorem decode_ne_instr_of_illegal {w : Word} {r : IllegalWord} (h : decode w = .illegal r) :
    ∀ i, decode w ≠ .instr i := by
  simp [h]

/-- No byte leaves every accumulator value as it is: 0x00 changes 0xFFFF, and any other byte changes 0x0000, which
0x00 keeps. -/
theorem exists_crcStep_ne (b : Byte) : ∃ acc, crcStep acc b ≠ acc := by
  by_cases hb : b = 0x00#8
  · exact ⟨0xFFFF#16, by subst hb; decide⟩
  · have hzero : crcStep 0x0000#16 0x00#8 = 0x0000#16 := by decide
    exact ⟨0x0000#16, fun h => hb (crcStep_injective_byte 0x0000#16 (h.trans hzero.symm))⟩

/-! ### The statements -/

/-- Settles O51: a command reports OK or takes one of its failing exits, each with one of its codes. -/
theorem statusCodesOfCommands : Obligations.StatusCodesOfCommands := by
  intro i s
  obtain ⟨b, hexec, hok | hfails⟩ := exec_ok_or_fails i s
  · refine ⟨_, hexec, ?_⟩
    rw [State_withBlock_block, hok]
    exact ok_mem_statusCodes i
  · exact ⟨_, hexec, hfails.status_mem⟩

/-- Settles O52: each failing exit leaves the block that the rule describes. -/
theorem failureLeavesNoPartialEffect : Obligations.FailureLeavesNoPartialEffect := by
  intro i s
  obtain ⟨b, hexec, hok | hfails⟩ := exec_ok_or_fails i s
  · exact ⟨_, hexec, fun hne => absurd hok hne⟩
  · refine ⟨_, hexec, fun _ => ?_⟩
    cases hfails with
    | txPush _ _ | txAppendCrc _ | rxPush _ _ => exact ⟨fun _ => rfl, by simp, by simp⟩
    | buildRead _ => exact ⟨by simp, fun _ => rfl, by simp⟩
    | parseRead _ | parseWrite _ => exact ⟨by simp, by simp, fun _ => congrArg s.withBlock (finishParse_nil _ _)⟩

/-- Settles O5: a word that decodes to no command runs R191; each of the three examples fails one of the checks of
30_encoding.md R82. -/
theorem illegalWordRule : Obligations.IllegalWordRule :=
  ⟨fun s _ h => performEvent_write_cmd_of_illegal h s,
   decode_ne_instr_of_illegal (r := .unassignedOp) (by decide),
   decode_ne_instr_of_illegal (r := .operandNotZero) (by decide),
   decode_ne_instr_of_illegal (r := .reservedNotZero) (by decide)⟩

/-- Settles O16: each of the four offsets selects its register, and a read changes the replies alone. -/
theorem operandWrites : Obligations.OperandWrites := fun s =>
  ⟨fun data =>
    ⟨performEvent_write_regOffset (r := .slave) (by decide) data s,
     performEvent_write_regOffset (r := .addr) (by decide) data s,
     performEvent_write_regOffset (r := .qty) (by decide) data s,
     performEvent_write_regOffset (r := .value) (by decide) data s⟩,
   fun off => performEvent_read_block off s⟩

/-- Settles O50: NOP's answer and word; for each other command a state from which it changes another register or reports
a failure. -/
theorem nopRule : Obligations.NopRule := by
  refine ⟨by decide, exec_nop, fun i hi => ?_⟩
  cases i with
  | nop => exact absurd rfl hi
  | crcInit =>
    exact ⟨State.reset.withBlock { Block.reset with crcAcc := 0x0000#16 }, _, exec_crcInit _,
      ne_of_apply_ne Block.crcAcc (by decide)⟩
  | crcByte b =>
    obtain ⟨acc, hacc⟩ := exists_crcStep_ne b
    exact ⟨State.reset.withBlock { Block.reset with crcAcc := acc }, _, exec_crcByte _ b,
      ne_of_apply_ne Block.crcAcc hacc⟩
  | txClear =>
    exact ⟨State.reset.withBlock { Block.reset with tx := [0x00#8] }, _, exec_txClear _,
      ne_of_apply_ne Block.tx (by decide)⟩
  | txPush b =>
    exact ⟨State.reset, _, exec_txPush_of_room b (by decide), ne_of_apply_ne Block.tx (List.cons_ne_nil b [])⟩
  | txAppendCrc =>
    exact ⟨State.reset, _, exec_txAppendCrc_of_room (by decide), ne_of_apply_ne Block.tx (List.cons_ne_nil _ _)⟩
  | buildRead =>
    exact ⟨State.reset, _, exec_buildRead_of_not_qtyOk (by decide), ne_of_apply_ne Block.status (by decide)⟩
  | buildWrite => exact ⟨State.reset, _, exec_buildWrite _, ne_of_apply_ne Block.tx (List.cons_ne_nil _ _)⟩
  | rxClear =>
    exact ⟨State.reset.withBlock { Block.reset with rx := [0x00#8] }, _, exec_rxClear _,
      ne_of_apply_ne Block.rx (by decide)⟩
  | rxPush b =>
    exact ⟨State.reset, _, exec_rxPush_of_room b (by decide), ne_of_apply_ne Block.rx (List.cons_ne_nil b [])⟩
  | parseRead => exact ⟨State.reset, _, exec_parseRead _, ne_of_apply_ne Block.status (by decide)⟩
  | parseWrite => exact ⟨State.reset, _, exec_parseWrite _, ne_of_apply_ne Block.status (by decide)⟩

end Sys2Proof.Machine

/-!
PROOFS. The exceptions family (60_exceptions.md R200 to R207): no step stops, so no run does, and the parameter comes
through it unchanged (10_state.md R31).
-/

namespace Sys2Proof.Machine

/-! ### Steps and runs -/

/-- With nothing at the port the block waits (70_reset_and_hazards.md R232). -/
theorem step_of_port_nil {s : State} (h : s.port = []) : step s = .next s := by
  simp only [step, h, waitForHost]

/-- Every step completes, and none writes the parameter (60_exceptions.md R200, 10_state.md R31). -/
theorem step_params (s : State) : ∃ t, step s = .next t ∧ t.params = s.params := by
  cases hport : s.port with
  | nil => exact ⟨s, step_of_port_nil hport, rfl⟩
  | cons e rest =>
    rw [step_of_port_cons hport]
    exact performEvent_params e (s.withPort rest)

/-- What every step completes with and keeps, a run of any length completes with and keeps. -/
theorem exists_reaches_of_step_keeps {P : State → Prop} (hstep : ∀ s, P s → ∃ t, step s = .next t ∧ P t) (k : Nat) :
    ∀ s, P s → ∃ t, Reaches k s t ∧ P t := by
  induction k with
  | zero => exact fun s hs => ⟨s, reaches_zero s, hs⟩
  | succ k ih =>
    intro s hs
    obtain ⟨t, hst, ht⟩ := hstep s hs
    obtain ⟨u, htu, hu⟩ := ih t ht
    exact ⟨u, reaches_succ hst htu, hu⟩

/-! ### The statements -/

/-- Settles O9: the run's first parameter is what every step completes with and keeps. -/
theorem nothingStopsTheBlock : Obligations.NothingStopsTheBlock := by
  intro s k
  refine exists_reaches_of_step_keeps (P := fun t => t.params = s.params) (fun u hu => ?_) k s rfl
  obtain ⟨t, hut, ht⟩ := step_params u
  exact ⟨t, hut, ht.trans hu⟩

end Sys2Proof.Machine

/-!
PROOFS. Reset, waiting and the hazards of an exchange (70_reset_and_hazards.md R230 to R236): bytes left in RX make a
response too long for every parse; a read exchange is the run of its request, of the pushes of its response and of its
parse, one after the other.
-/

namespace Sys2Proof.Machine

open Sys2Proof.Statements

/-! ### A response that is too long -/

/-- No short exception frame is longer than a response, so one with too many bytes fails stage (a) or stage (b)
(42_decoder.md R154, R155). -/
theorem frameVerdict_of_long {p : Params} {e : Nat} {fc slave : Byte} {rx : List Byte} (he : 5 ≤ e)
    (h : e < rx.length) : frameVerdict p e fc slave rx = if crcBad rx then .crc else .malformed := by
  have hno : ¬ (rx.length = e ∨ shortExc p rx = true) := by
    rintro (hlen | hxs)
    · omega
    · have := length_of_shortExc hxs
      omega
  rw [frameVerdict_of_not_length hno, if_neg (by omega)]

/-- Both parses report the shared stages' verdict on a response that is too long (42_decoder.md R162, R163). -/
theorem writeVerdict_of_long {p : Params} {b : Block} (h : 8 < b.rx.length) :
    writeVerdict p b = if crcBad b.rx then .crc else .malformed :=
  frameVerdict_of_long (by decide) h

theorem readVerdict_of_long {p : Params} {b : Block} (hq : qtyOk b.qty = true)
    (h : 5 + 2 * b.qty.toNat < b.rx.length) : readVerdict p b = if crcBad b.rx then .crc else .malformed := by
  have hframe : frameVerdict p (readRespLen b.qty) Config.fcRead b.slave b.rx =
      if crcBad b.rx then .crc else .malformed := frameVerdict_of_long (Nat.le_add_right 5 _) h
  rw [readVerdict, if_pos hq, hframe]
  exact byteCountVerdict_of_ne_ok _ (by split <;> decide)

/-- The codes of the two outcomes of a response that is too long (60_exceptions.md R201). -/
theorem code_crc_or_malformed {v : StatusCode} {bad : Bool} (h : v = if bad then .crc else .malformed) :
    v.code = 0x03#8 ∨ v.code = 0x06#8 := by
  cases bad with
  | true => exact .inl (congrArg StatusCode.code h)
  | false => exact .inr (congrArg StatusCode.code h)

/-! ### Runs one after the other -/

theorem run_add_of_run {M : Host.Core} {j k : Nat} {s t : M.State} (h : M.run j s = .next t) :
    M.run (j + k) s = M.run k t := by
  induction j generalizing s with
  | zero =>
    obtain rfl : s = t := Host.Outcome.next.inj h
    rw [Nat.zero_add]
  | succ j ih =>
    rw [Host.Core.run] at h
    split at h
    next s' hstep => rw [Nat.succ_add, run_succ_of_step hstep, ih h]
    next => cases h
    next => cases h

theorem reaches_add {j k : Nat} {s t u : State} (h : Reaches j s t) (hu : Reaches k t u) : Reaches (j + k) s u :=
  (run_add_of_run (M := core) h).trans hu

theorem asmEvents_append (l m : List AsmLine) : asmEvents (l ++ m) = asmEvents l ++ asmEvents m := List.map_append

/-! ### The parts of a read exchange -/

/-- A register keeps an operand that fits it (20_memory.md R57). -/
theorem extractLsb'_zeroExtend {w : Nat} {v : BitVec w} (h : w ≤ 32) : (v.zeroExtend 32).extractLsb' 0 w = v :=
  (BitVec.extractLsb'_setWidth_of_le (by omega)).trans BitVec.extractLsb'_eq_self

theorem extractLsb'_ofNat {w n : Nat} (h : w ≤ 32) : (BitVec.ofNat 32 n).extractLsb' 0 w = BitVec.ofNat w n :=
  (BitVec.setWidth_eq_extractLsb' h).symm.trans (BitVec.setWidth_ofNat_of_le h n)

/-- A number below 256 has the high byte 0 (00_scope.md R10). -/
theorem secondByte_ofNat {n : Nat} (h : n < 256) : (BitVec.ofNat 32 n).extractLsb' 8 8 = 0x00#8 := by
  apply BitVec.eq_of_toNat_eq
  rw [BitVec.extractLsb'_toNat, BitVec.toNat_ofNat, Nat.shiftRight_eq_div_pow]
  change _ = 0
  omega

/-- READREQ with operands that fit their registers (30_encoding.md R92). -/
theorem reaches_readReq {s : State} {slave : Byte} {addr : Half} {n : Nat} {rest : List HostEvent} (hmin : 1 ≤ n)
    (hmax : n ≤ 125)
    (hport : s.port =
      asmEvents (expand (.readReq (slave.zeroExtend 32) (addr.zeroExtend 32) (BitVec.ofNat 32 n))) ++ rest) :
    Reaches 4 s ((s.withPort rest).withBlock (finishOk { s.block with
      slave := slave, addr := addr, qty := BitVec.ofNat 16 n
      tx := framed [slave, 0x03#8, addr.extractLsb' 8 8, addr.extractLsb' 0 8, 0x00#8, BitVec.ofNat 8 n]
      rx := [] })) := by
  have hq : (BitVec.ofNat 32 n).toNat % 2 ^ 16 = n := by
    rw [BitVec.toNat_ofNat]
    omega
  have hrun := (requestPseudoInstructions s _ _ _ rest).1 hport (hq.symm ▸ hmin) (hq.symm ▸ hmax)
  rw [extractLsb'_zeroExtend (by decide), extractLsb'_zeroExtend (by decide), extractLsb'_ofNat (by decide),
    extractLsb'_ofNat (by decide), BitVec.extractLsb'_setWidth_of_le (by decide),
    BitVec.extractLsb'_setWidth_of_le (by decide), secondByte_ofNat (by omega)] at hrun
  exact hrun

/-- RX_PUSH of each byte in turn fills an RX that an earlier command left empty with STATUS 0 (42_decoder.md R151). -/
theorem reaches_rxPushes {s : State} {bytes : List Byte} {rest : List HostEvent} (hlen : bytes.length ≤ 256)
    (hempty : s.block = finishOk { s.block with rx := [] })
    (hport : s.port = asmEvents (bytes.map fun b => .command (.rxPush b)) ++ rest) :
    Reaches bytes.length s ((s.withPort rest).withBlock (finishOk { s.block with rx := bytes })) := by
  refine reaches_pushes (load := fun l => finishOk { s.block with rx := l }) (pre := []) (n := 256)
    (fun t pre b hpre ht => ?_) (by simpa using hlen) hport hempty
  have hrx : t.block.rx = pre := by rw [ht]; rfl
  rw [exec_rxPush_of_room b (by rw [hrx]; omega), hrx, ht]
  rfl

/-- PARSE_READ of the normal response decodes its register values (30_encoding.md R88, 42_decoder.md R161, R165). -/
theorem reaches_parseRead {s : State} {ws : List Half} {rest : List HostEvent} (hmin : 1 ≤ ws.length)
    (hmax : ws.length ≤ 125) (hqty : s.block.qty.toNat = ws.length) (hrx : s.block.rx = readResponse s.block.slave ws)
    (hport : s.port = asmEvents [.command .parseRead] ++ rest) :
    Reaches 1 s ((s.withPort rest).withBlock (finishOk { s.block with result := ws, excCode := 0x00#8 })) := by
  have hok : readVerdict s.params s.block = .ok :=
    readVerdict_ok_iff_readResponse.2 ⟨hqty ▸ hmin, hqty ▸ hmax, ws, hqty.symm, hrx⟩
  have hwords : decodeWords s.block.rx s.block.qty.toNat = ws := by rw [hrx, hqty, decodeWords_readResponse]
  have hexec : exec .parseRead (s.withPort rest) =
      .next ((s.withPort rest).withBlock (finishParse .ok ws s.block)) := by
    rw [exec_parseRead, State_withPort_params, State_withPort_block, hok, hwords]
  exact reaches_succ ((step_command hport).trans hexec) (reaches_zero _)

/-! ### The statements -/

/-- Settles O48: the old bytes make the response longer than either parse expects. -/
theorem staleBytesNeverAccepted : Obligations.StaleBytesNeverAccepted := by
  intro s old resp hrx hold
  have hlong : resp.length < s.block.rx.length := by
    rw [hrx, List.length_append]
    exact Nat.lt_add_of_pos_left (List.length_pos_of_ne_nil hold)
  refine ⟨fun hmin hmax hlen => ⟨_, exec_parseRead s, ?_⟩, fun hlen => ⟨_, exec_parseWrite s, ?_⟩⟩
  · exact code_crc_or_malformed (readVerdict_of_long ((qtyOk_iff _).2 ⟨hmin, hmax⟩) (hlen ▸ hlong))
  · exact code_crc_or_malformed (writeVerdict_of_long (hlen ▸ hlong))

/-- Settles O57: the request, the pushes of its response into the RX it emptied, and the parse that accepts them. -/
theorem readExchangeDelivers : Obligations.ReadExchangeDelivers := by
  intro s slave addr ws rest hmin hmax hport
  rw [asmEvents_append, asmEvents_append, List.append_assoc, List.append_assoc] at hport
  have hrequest := reaches_readReq hmin hmax hport
  have hbytes := readResponse_length slave ws
  have hfilled := reaches_add hrequest (reaches_rxPushes (bytes := readResponse slave ws) (by omega) rfl rfl)
  rw [hbytes] at hfilled
  have hqty : (BitVec.ofNat 16 ws.length).toNat = ws.length := by
    rw [BitVec.toNat_ofNat]
    omega
  exact ⟨_, reaches_add hfilled (reaches_parseRead hmin hmax hqty rfl rfl), rfl, rfl, rfl⟩

/-- Settles O6: reset replaces the block whole, and CONFIG is read from the parameter, which it leaves. -/
theorem resetRule : Obligations.ResetRule := by
  refine ⟨rfl, fun s => ⟨_, rfl, rfl, ?_⟩⟩
  rw [hostRead_config, hostRead_config]
  rfl

/-- Settles O10: an empty port holds no transaction to perform. -/
theorem waitsForHost : Obligations.WaitsForHost :=
  fun _ => step_of_port_nil

end Sys2Proof.Machine
